-- ==== Sys2Proof/Word.lean ====
section
/-! DEFINITION. The word types of the block (spec/00_scope.md R8, R9): every quantity that is bits is a bit vector of
the width the spec states, bit 0 its least significant bit, unsigned. -/

namespace Sys2Proof

/-- The unit of storage of both memories (20_memory.md R40; R9: "A byte is 8 bits"). -/
abbrev Byte := BitVec 8

/-- A value on the ports: `VAL_BITS` = 64 (R8). -/
abbrev Word64 := BitVec 64

/-- A bit cursor: `CUR_BITS` = 64, unsigned (R8, R22, R27). -/
abbrev Cursor := BitVec 64

/-- A command word `CMD[79:0]` (30_encoding.md R65). -/
abbrev CommandWord := BitVec 80

end Sys2Proof
end

