-- ==== Sys2Proof/Config.lean ====
section
/-! DEFINITION. What is fixed for the block: the parameters of spec/00_scope.md R8 that the spec fixes, and the default
it gives the open parameter `WCAP`; and the block's one free value. The open parameters themselves (`WCAP`, `XSRC`) are
arguments of the model and are held in `State`, so that a statement about every state holds for every value of them
(assumption log 1, 2). -/

namespace Sys2Proof

/-- No cursor reaches this value: `CUR_BITS` = 64 (R8); an update that would is refused (R118, R140). -/
abbrev Config.cursorLimit : Nat := 2 ^ 64

/-- `RLEN` is below this value: the register has 61 bits (10_state.md R28, R31; 92_eei_decisions.md D6), and so is `XLEN`
(92_eei_decisions.md, open parameters). -/
abbrev Config.sourceLimit : Nat := 2 ^ 61

/-- FREE VALUE: what the 61 bits of `RLEN` hold after a reader is created over `2^61` bytes or more, a length the register
cannot hold. Nothing constrains it; each draw takes the next number (assumption log 5, 14). -/
opaque Config.freeLength : Nat → BitVec 61

/-- The default of `WCAP`, the capacity of `WBUF` in bytes: unbounded (R8; 92_eei_decisions.md D13). -/
abbrev Config.defaultCapacity : Option Nat := none

end Sys2Proof
end

