-- ==== Sys2Proof/Syntax.lean ====
section
/-! DEFINITION. The commands: one constructor per row of spec/opcode_table.json (30_encoding.md R74). A written value is
bits of its container width (R71); a `bitCount` and a skip amount are counts (R70, R72), whose ranges `WellFormed`
checks. -/

namespace Sys2Proof

/-- The 22 commands of the block (00_scope.md R3). -/
inductive Instr where
  /-- Create the writer empty (R110). -/
  | wnew
  /-- Write one boolean (R112). -/
  | wrb (b : Bool)
  /-- Write the low `n` bits of an 8-bit value (R113). -/
  | wr8 (v : BitVec 8) (n : Nat)
  /-- Write the low `n` bits of a 16-bit value (R114). -/
  | wr16 (v : BitVec 16) (n : Nat)
  /-- Write the low `n` bits of a 32-bit value (R115). -/
  | wr32 (v : BitVec 32) (n : Nat)
  /-- Write the low `n` bits of a 64-bit value (R116). -/
  | wr64 (v : BitVec 64) (n : Nat)
  /-- Expose the current byte sequence (R117). -/
  | wbytes
  /-- `RNEW.X`: create the reader over the external sequence (R130). -/
  | rnewX
  /-- `RNEW.W`: create the reader over a copy of the writer's bytes (R131). -/
  | rnewW
  /-- Read one boolean (R133). -/
  | rdb
  /-- Read `n` bits into an 8-bit container (R134). -/
  | rd8 (n : Nat)
  /-- Read `n` bits into a 16-bit container (R135). -/
  | rd16 (n : Nat)
  /-- Read `n` bits into a 32-bit container (R136). -/
  | rd32 (n : Nat)
  /-- Read `n` bits into a 64-bit container (R137). -/
  | rd64 (n : Nat)
  /-- Advance the reader's cursor by `k` (R138). -/
  | rskip (k : Nat)
  /-- Sticky read of one boolean (R152). -/
  | srdb
  /-- Sticky read of `n` bits into an 8-bit container (R153). -/
  | srd8 (n : Nat)
  /-- Sticky read of `n` bits into a 16-bit container (R154). -/
  | srd16 (n : Nat)
  /-- Sticky read of `n` bits into a 32-bit container (R155). -/
  | srd32 (n : Nat)
  /-- Sticky read of `n` bits into a 64-bit container (R156). -/
  | srd64 (n : Nat)
  /-- Skip through the wrapper (R157). -/
  | sskip (k : Nat)
  /-- Query the stored error (R158). -/
  | serrq
  deriving DecidableEq, Repr

end Sys2Proof
end

