-- ==== Sys2Proof/WellFormed.lean ====
section
/-! DEFINITION. Which commands can be spelled by a command word: the operand ranges of spec/30_encoding.md R70, R72 and
R77. A `bitCount` above the container width is well formed (R70: "All 256 values decode for all twelve commands");
what executing it does is the machine's matter (R76). -/

namespace Sys2Proof

/-- `BC` holds 0 to 255 (R70). -/
abbrev bitCountInRange (n : Nat) : Bool := decide (n < 2 ^ 8)

/-- `VAL` holds a skip amount 0 to `2^64 - 1` (R72). -/
abbrev skipInRange (k : Nat) : Bool := decide (k < 2 ^ 64)

/-- The operand ranges of R77, command by command. -/
def Instr.wellFormed : Instr → Bool
  | .wnew => true
  | .wrb _ => true
  | .wr8 _ n => bitCountInRange n
  | .wr16 _ n => bitCountInRange n
  | .wr32 _ n => bitCountInRange n
  | .wr64 _ n => bitCountInRange n
  | .wbytes => true
  | .rnewX => true
  | .rnewW => true
  | .rdb => true
  | .rd8 n => bitCountInRange n
  | .rd16 n => bitCountInRange n
  | .rd32 n => bitCountInRange n
  | .rd64 n => bitCountInRange n
  | .rskip k => skipInRange k
  | .srdb => true
  | .srd8 n => bitCountInRange n
  | .srd16 n => bitCountInRange n
  | .srd32 n => bitCountInRange n
  | .srd64 n => bitCountInRange n
  | .sskip k => skipInRange k
  | .serrq => true

end Sys2Proof
end

