-- ==== Sys2Proof/Decode.lean ====
section
/-! DEFINITION. The command word: its fields (spec/30_encoding.md R66), the decoder (R67 to R73, R75, R83), the encoder
(R83), and the opcode map of R74 written a second time, row by row with its mask and match, from
spec/opcode_table.json. The decoder reads fields and names the reason of a rejection; the map is the independent second
reading that statements hold it against. -/

namespace Sys2Proof

/-- Why a word is reserved (R75). -/
inductive Rejection where
  /-- `OP` is `0x0` or `0xA` to `0xF`. -/
  | reservedOp
  /-- `SUB` selects nothing in this group. -/
  | reservedSub
  /-- `BC` must be 0 in this command. -/
  | nonzeroBc
  /-- A bit of `VAL` that must be 0 is not. -/
  | nonzeroVal
  deriving DecidableEq, Repr

/-- `Decode : 80-bit word -> command | invalid` (R83). -/
inductive Decoded where
  | command (i : Instr)
  | invalid (why : Rejection)
  deriving DecidableEq, Repr

/-- The four fields of R66. -/
structure Fields where
  op : BitVec 4
  sub : BitVec 4
  bc : BitVec 8
  val : BitVec 64
  deriving DecidableEq, Repr

/-- `OP = CMD[79:76]`, `SUB = CMD[75:72]`, `BC = CMD[71:64]`, `VAL = CMD[63:0]` (R66). -/
def fieldsOf (w : CommandWord) : Fields where
  op := w.extractLsb' 76 4
  sub := w.extractLsb' 72 4
  bc := w.extractLsb' 64 8
  val := w.extractLsb' 0 64

/-- The word of four fields, `OP` highest (R66). -/
def wordOf (f : Fields) : CommandWord := f.op ++ f.sub ++ f.bc ++ f.val

/-- The command `i` where `BC` and all of `VAL` must be 0 (R73). -/
def decodeBare (f : Fields) (i : Instr) : Decoded :=
  if f.bc ≠ 0 then .invalid .nonzeroBc
  else if f.val ≠ 0 then .invalid .nonzeroVal
  else .command i

/-- The command `i` of a group whose `SUB`, `BC` and `VAL` must all be 0 (`OP` = 1, 3, 9; R73). -/
def decodeAlone (f : Fields) (i : Instr) : Decoded :=
  if f.sub ≠ 0 then .invalid .reservedSub else decodeBare f i

/-- The command `i` where the bits of `VAL` from bit `W` up must be 0 (R71). -/
def decodeValue (f : Fields) (W : Nat) (i : Instr) : Decoded :=
  if f.val >>> W ≠ 0 then .invalid .nonzeroVal else .command i

/-- `OP` = 2: `SUB` selects the container (R68); the value is the low W bits of `VAL` (R71), the count is `BC` (R70). -/
def decodeWrite (f : Fields) : Decoded :=
  if f.sub = 0x0#4 then
    if f.bc ≠ 0 then .invalid .nonzeroBc else decodeValue f 1 (.wrb (f.val.getLsbD 0))
  else if f.sub = 0x1#4 then decodeValue f 8 (.wr8 (f.val.setWidth 8) f.bc.toNat)
  else if f.sub = 0x2#4 then decodeValue f 16 (.wr16 (f.val.setWidth 16) f.bc.toNat)
  else if f.sub = 0x3#4 then decodeValue f 32 (.wr32 (f.val.setWidth 32) f.bc.toNat)
  else if f.sub = 0x4#4 then .command (.wr64 f.val f.bc.toNat)
  else .invalid .reservedSub

/-- `OP` = 4: `SUB` selects the source (R69). -/
def decodeCreateReader (f : Fields) : Decoded :=
  if f.sub = 0x0#4 then decodeBare f .rnewX
  else if f.sub = 0x1#4 then decodeBare f .rnewW
  else .invalid .reservedSub

/-- The command `i` that takes a count in `BC` and whose `VAL` must be 0 (R70, R73). -/
def decodeCount (f : Fields) (i : Instr) : Decoded :=
  if f.val ≠ 0 then .invalid .nonzeroVal else .command i

/-- `OP` = 5: `SUB` selects the container (R68), `BC` is the count (R70). -/
def decodeRead (f : Fields) : Decoded :=
  if f.sub = 0x0#4 then decodeBare f .rdb
  else if f.sub = 0x1#4 then decodeCount f (.rd8 f.bc.toNat)
  else if f.sub = 0x2#4 then decodeCount f (.rd16 f.bc.toNat)
  else if f.sub = 0x3#4 then decodeCount f (.rd32 f.bc.toNat)
  else if f.sub = 0x4#4 then decodeCount f (.rd64 f.bc.toNat)
  else .invalid .reservedSub

/-- `OP` = 7: as `decodeRead`, for the sticky group (R68, R70). -/
def decodeStickyRead (f : Fields) : Decoded :=
  if f.sub = 0x0#4 then decodeBare f .srdb
  else if f.sub = 0x1#4 then decodeCount f (.srd8 f.bc.toNat)
  else if f.sub = 0x2#4 then decodeCount f (.srd16 f.bc.toNat)
  else if f.sub = 0x3#4 then decodeCount f (.srd32 f.bc.toNat)
  else if f.sub = 0x4#4 then decodeCount f (.srd64 f.bc.toNat)
  else .invalid .reservedSub

/-- `OP` = 6, 8: `VAL` is the skip amount; `SUB` and `BC` must be 0 (R72). -/
def decodeSkip (f : Fields) (i : Instr) : Decoded :=
  if f.sub ≠ 0 then .invalid .reservedSub
  else if f.bc ≠ 0 then .invalid .nonzeroBc
  else .command i

/-- The groups of R67. -/
def decodeFields (f : Fields) : Decoded :=
  if f.op = 0x1#4 then decodeAlone f .wnew
  else if f.op = 0x2#4 then decodeWrite f
  else if f.op = 0x3#4 then decodeAlone f .wbytes
  else if f.op = 0x4#4 then decodeCreateReader f
  else if f.op = 0x5#4 then decodeRead f
  else if f.op = 0x6#4 then decodeSkip f (.rskip f.val.toNat)
  else if f.op = 0x7#4 then decodeStickyRead f
  else if f.op = 0x8#4 then decodeSkip f (.sskip f.val.toNat)
  else if f.op = 0x9#4 then decodeAlone f .serrq
  else .invalid .reservedOp

/-- The decoder, total on 80-bit words (R83). -/
def decode (w : CommandWord) : Decoded := decodeFields (fieldsOf w)

/-- The fields of a command: "`Encode` of a command with in-range operands places `OP`, `SUB`, `BC` and `VAL` as rules
R66 to R72 say and zero elsewhere" (R83). -/
def encodeFields : Instr → Fields
  | .wnew => ⟨0x1, 0x0, 0, 0⟩
  | .wrb b => ⟨0x2, 0x0, 0, (BitVec.ofBool b).setWidth 64⟩
  | .wr8 v n => ⟨0x2, 0x1, BitVec.ofNat 8 n, v.setWidth 64⟩
  | .wr16 v n => ⟨0x2, 0x2, BitVec.ofNat 8 n, v.setWidth 64⟩
  | .wr32 v n => ⟨0x2, 0x3, BitVec.ofNat 8 n, v.setWidth 64⟩
  | .wr64 v n => ⟨0x2, 0x4, BitVec.ofNat 8 n, v⟩
  | .wbytes => ⟨0x3, 0x0, 0, 0⟩
  | .rnewX => ⟨0x4, 0x0, 0, 0⟩
  | .rnewW => ⟨0x4, 0x1, 0, 0⟩
  | .rdb => ⟨0x5, 0x0, 0, 0⟩
  | .rd8 n => ⟨0x5, 0x1, BitVec.ofNat 8 n, 0⟩
  | .rd16 n => ⟨0x5, 0x2, BitVec.ofNat 8 n, 0⟩
  | .rd32 n => ⟨0x5, 0x3, BitVec.ofNat 8 n, 0⟩
  | .rd64 n => ⟨0x5, 0x4, BitVec.ofNat 8 n, 0⟩
  | .rskip k => ⟨0x6, 0x0, 0, BitVec.ofNat 64 k⟩
  | .srdb => ⟨0x7, 0x0, 0, 0⟩
  | .srd8 n => ⟨0x7, 0x1, BitVec.ofNat 8 n, 0⟩
  | .srd16 n => ⟨0x7, 0x2, BitVec.ofNat 8 n, 0⟩
  | .srd32 n => ⟨0x7, 0x3, BitVec.ofNat 8 n, 0⟩
  | .srd64 n => ⟨0x7, 0x4, BitVec.ofNat 8 n, 0⟩
  | .sskip k => ⟨0x8, 0x0, 0, BitVec.ofNat 64 k⟩
  | .serrq => ⟨0x9, 0x0, 0, 0⟩

/-- The encoder (R83). -/
def encode (i : Instr) : CommandWord := wordOf (encodeFields i)

/-- The command's mnemonic as R74 spells it. -/
def Instr.mnemonic : Instr → String
  | .wnew => "WNEW"
  | .wrb _ => "WRB"
  | .wr8 _ _ => "WR8"
  | .wr16 _ _ => "WR16"
  | .wr32 _ _ => "WR32"
  | .wr64 _ _ => "WR64"
  | .wbytes => "WBYTES"
  | .rnewX => "RNEW.X"
  | .rnewW => "RNEW.W"
  | .rdb => "RDB"
  | .rd8 _ => "RD8"
  | .rd16 _ => "RD16"
  | .rd32 _ => "RD32"
  | .rd64 _ => "RD64"
  | .rskip _ => "RSKIP"
  | .srdb => "SRDB"
  | .srd8 _ => "SRD8"
  | .srd16 _ => "SRD16"
  | .srd32 _ => "SRD32"
  | .srd64 _ => "SRD64"
  | .sskip _ => "SSKIP"
  | .serrq => "SERRQ"

/-- A row of the opcode map: a word is this row's command if and only if `word &&& mask = pattern` (R74). `command`
reads the row's operands straight from the bits of the word: `n` is `BC`, `v` the low W bits of `VAL`, `k` is `VAL`. -/
structure OpcodeRow where
  mnemonic : String
  pattern : CommandWord
  mask : CommandWord
  command : CommandWord → Instr

/-- `BC` of a word, read in place. -/
def wordCount (w : CommandWord) : Nat := (w.extractLsb' 64 8).toNat

/-- The writer's rows of R74. -/
def writerRows : List OpcodeRow :=
  [⟨"WNEW", 0x10000000000000000000, 0xFFFFFFFFFFFFFFFFFFFF, fun _ => .wnew⟩,
   ⟨"WRB", 0x20000000000000000000, 0xFFFFFFFFFFFFFFFFFFFE, fun w => .wrb (w.getLsbD 0)⟩,
   ⟨"WR8", 0x21000000000000000000, 0xFF00FFFFFFFFFFFFFF00, fun w => .wr8 (w.extractLsb' 0 8) (wordCount w)⟩,
   ⟨"WR16", 0x22000000000000000000, 0xFF00FFFFFFFFFFFF0000, fun w => .wr16 (w.extractLsb' 0 16) (wordCount w)⟩,
   ⟨"WR32", 0x23000000000000000000, 0xFF00FFFFFFFF00000000, fun w => .wr32 (w.extractLsb' 0 32) (wordCount w)⟩,
   ⟨"WR64", 0x24000000000000000000, 0xFF000000000000000000, fun w => .wr64 (w.extractLsb' 0 64) (wordCount w)⟩,
   ⟨"WBYTES", 0x30000000000000000000, 0xFFFFFFFFFFFFFFFFFFFF, fun _ => .wbytes⟩]

/-- The direct reader's rows of R74. -/
def readerRows : List OpcodeRow :=
  [⟨"RNEW.X", 0x40000000000000000000, 0xFFFFFFFFFFFFFFFFFFFF, fun _ => .rnewX⟩,
   ⟨"RNEW.W", 0x41000000000000000000, 0xFFFFFFFFFFFFFFFFFFFF, fun _ => .rnewW⟩,
   ⟨"RDB", 0x50000000000000000000, 0xFFFFFFFFFFFFFFFFFFFF, fun _ => .rdb⟩,
   ⟨"RD8", 0x51000000000000000000, 0xFF00FFFFFFFFFFFFFFFF, fun w => .rd8 (wordCount w)⟩,
   ⟨"RD16", 0x52000000000000000000, 0xFF00FFFFFFFFFFFFFFFF, fun w => .rd16 (wordCount w)⟩,
   ⟨"RD32", 0x53000000000000000000, 0xFF00FFFFFFFFFFFFFFFF, fun w => .rd32 (wordCount w)⟩,
   ⟨"RD64", 0x54000000000000000000, 0xFF00FFFFFFFFFFFFFFFF, fun w => .rd64 (wordCount w)⟩,
   ⟨"RSKIP", 0x60000000000000000000, 0xFFFF0000000000000000, fun w => .rskip (w.extractLsb' 0 64).toNat⟩]

/-- The sticky wrapper's rows of R74. -/
def stickyRows : List OpcodeRow :=
  [⟨"SRDB", 0x70000000000000000000, 0xFFFFFFFFFFFFFFFFFFFF, fun _ => .srdb⟩,
   ⟨"SRD8", 0x71000000000000000000, 0xFF00FFFFFFFFFFFFFFFF, fun w => .srd8 (wordCount w)⟩,
   ⟨"SRD16", 0x72000000000000000000, 0xFF00FFFFFFFFFFFFFFFF, fun w => .srd16 (wordCount w)⟩,
   ⟨"SRD32", 0x73000000000000000000, 0xFF00FFFFFFFFFFFFFFFF, fun w => .srd32 (wordCount w)⟩,
   ⟨"SRD64", 0x74000000000000000000, 0xFF00FFFFFFFFFFFFFFFF, fun w => .srd64 (wordCount w)⟩,
   ⟨"SSKIP", 0x80000000000000000000, 0xFFFF0000000000000000, fun w => .sskip (w.extractLsb' 0 64).toNat⟩,
   ⟨"SERRQ", 0x90000000000000000000, 0xFFFFFFFFFFFFFFFFFFFF, fun _ => .serrq⟩]

/-- The opcode map of R74. -/
def opcodeTable : List OpcodeRow := writerRows ++ readerRows ++ stickyRows

/-- The word matches the row: `(w & mask) = match` (R74). -/
abbrev OpcodeRow.accepts (row : OpcodeRow) (w : CommandWord) : Prop := w &&& row.mask = row.pattern

/-- The word whose low `nbits` bits are those of `w` and whose higher bits are 0. A command word is "a parallel quantity"
(R66): no byte serialisation exists, so bit `k` of the table's number is `CMD[k]`. -/
def tableWord (nbits w : Nat) : CommandWord := BitVec.ofNat 80 (w % 2 ^ nbits)

/-- The command the decoder reads from a word numbered as spec/opcode_table.json numbers it. -/
def decodeTableWord (nbits w : Nat) : Option Instr :=
  match decode (tableWord nbits w) with
  | .command i => some i
  | .invalid _ => none

end Sys2Proof
end

