-- ==== Sys2Proof/Machine/State.lean ====
section
/-! DEFINITION. The state of the block as plain data: the six registers and two byte memories of spec/10_state.md
(R22 to R30), the two open parameters held as data (`WCAP`, `XSRC`; 00_scope.md R8), the port on which the host supplies
commands (R21) and what the host has been given back (70_reset_and_hazards.md R193). -/

namespace Sys2Proof.Machine

/-- The two error kinds, and no third (60_exceptions.md R170). -/
inductive ErrorKind where
  /-- Code 1: "a read requested more bits than the addressed container width supports" (R171). -/
  | bitCountTooBig
  /-- Code 2: "a read ... required a byte beyond the bounds of the available sequence" (R172). -/
  | unexpectedEndOfData
  deriving DecidableEq, Repr

/-- A response word (30_encoding.md R80): `STATUS`, of which the value 3 is excluded by type, and `DATA`. -/
structure Response where
  status : Option ErrorKind
  data : Word64
  deriving DecidableEq, Repr

/-- What one completed command gives the host (R80, R82): its response, and for `WBYTES` the byte output. -/
structure Output where
  response : Response
  bytes : Option (List Byte)
  deriving DecidableEq, Repr

/-- What the host can do to the block (assumption log 2, 3, 4). -/
inductive HostInput where
  /-- Present a command word on the command port (R21). -/
  | command (word : CommandWord)
  /-- Place a whole external sequence in `XSRC`, its length being `XLEN` (R35, R192 (3)). -/
  | placeSource (bytes : List Byte)
  /-- Reset the block (R190). -/
  | reset
  deriving DecidableEq, Repr

/-- A byte memory: pairs of a byte index and the byte there, indices strictly rising (`Memory.wf`). An index not listed
holds nothing: "Contents at and above index `WLEN` do not exist architecturally" (R24). -/
abbrev Memory := List Host.Cell

/-- The block and its port. -/
structure State where
  /-- `WCUR`, the writer's bit cursor (R22). -/
  wcur : Cursor
  /-- `WLEN`, the number of bytes in `WBUF` (R23: "a model may use a natural number"). -/
  wlen : Nat
  /-- `WBUF`, the writer's byte buffer (R24). -/
  wbuf : Memory
  /-- `RCUR`, the reader's bit cursor (R27). -/
  rcur : Cursor
  /-- `RLEN`, the length of the reader's source in bytes, a natural number below `2^61` (R28, R31). -/
  rlen : Nat
  /-- `RSRC`, the reader's source (R28). -/
  rsrc : Memory
  /-- `RBOUND`: the reader has been given a byte sequence (R29). -/
  rbound : Bool
  /-- `SERR`, the sticky error latch (R30); the value 3 is excluded by type. -/
  serr : Option ErrorKind
  /-- `WCAP`, the capacity of `WBUF` in bytes, `none` when unbounded: an open parameter, changed by no step (R8). -/
  wcap : Option Nat
  /-- `XSRC`, the external byte sequence; `XLEN` is its length (R35). An input, changed by no command. -/
  xsrc : List Byte
  /-- What the host will do next, first to last (R21, R193). -/
  inputs : List HostInput
  /-- What completed commands have answered, oldest first (R193). -/
  outputs : List Output
  /-- How many free values have been drawn from `Config.freeLength`: the model's own counter, no state of the block
  (assumption log 14). -/
  freeDraws : Nat
  deriving DecidableEq, Repr

/-- Why the machine stops without a next state. -/
inductive Fault where
  /-- The outcome `stuck` (00_scope.md R13): raised by `WRB`, `WR8` to `WR64` when the write "would make `WLEN > WCAP`"
  (41_writer.md R120). Safe: the spec gives the command no next state. -/
  | stuckAtCapacity
  /-- A byte that a length register says exists is not in the memory: raised by writes (the partial last byte) and reads
  (a byte below `RLEN`). Only states that break the invariant of `Safety.lean` raise it; the spec calls such a state
  "unreachable and needs no treatment" (93_implementation_defined.md U15). Safe. -/
  | absentByte
  deriving DecidableEq, Repr

/-- Why a step has no meaning: the outcome `refuse` of 00_scope.md R13. -/
inductive Refusal where
  /-- Raised by an arm of `exec` that has no meaning yet. Safe. -/
  | notModelled (mnemonic : String)
  /-- Raised by `step` on a reserved command word (30_encoding.md R75). Safe. -/
  | reservedEncoding (why : Rejection)
  /-- Raised by `WR8` to `WR64` when `bitCount > W` (41_writer.md R118 a). Safe. -/
  | writeCountTooBig
  /-- Raised by `WRB`, `WR8` to `WR64` when `WCUR + bitCount ≥ 2^64` (41_writer.md R118 b). Safe. -/
  | writeCursorOverflow
  /-- Raised by every reader and sticky command but `RNEW.X`, `RNEW.W` while `RBOUND = 0` (42_reader.md R139). Safe. -/
  | readerUnbound
  /-- Raised by a read that would make `RCUR ≥ 2^64` (10_state.md R27, 42_reader.md R140); possible only
  where `RLEN ≥ 2^61`, in states that break the invariant of `Safety.lean` (R28). Safe. -/
  | readCursorOverflow
  /-- Raised by `RSKIP`, `SSKIP` when `RCUR + k ≥ 2^64` (42_reader.md R140). Safe. -/
  | skipCursorOverflow
  /-- Raised by `step` when the host places a sequence with `XLEN ≥ 2^61` in `XSRC` (92_eei_decisions.md, open
  parameters; assumption log 2). Safe. -/
  | sourceTooLong
  deriving DecidableEq, Repr

/-- The state after reset (10_state.md R36, 70_reset_and_hazards.md R190): the writer freshly created, the reader not yet
created. `WCAP` at its default; no external sequence placed (assumption log 2); nothing on the port, nothing answered, no free value
drawn. -/
def State.reset : State where
  wcur := 0
  wlen := 0
  wbuf := []
  rcur := 0
  rlen := 0
  rsrc := []
  rbound := false
  serr := none
  wcap := Config.defaultCapacity
  xsrc := []
  inputs := []
  outputs := []
  freeDraws := 0

end Sys2Proof.Machine
end

