-- ==== Sys2Proof/Machine/Flags.lean ====
section
/-! DEFINITION. The one flag of the block, the sticky error latch `SERR` (spec/10_state.md R30), the codes of the error
kinds (60_exceptions.md R171, R172) and the bits of a response word (30_encoding.md R80). -/

namespace Sys2Proof.Machine

/-- The 2-bit code of a stored or reported error: 0 none, 1 `BitCountTooBig`, 2 `UnexpectedEndOfData` (R8, R30, R80). -/
def errorCode : Option ErrorKind → BitVec 2
  | none => 0
  | some .bitCountTooBig => 1
  | some .unexpectedEndOfData => 2

/-- Latching an error: "once set it is never overwritten" (R30). -/
def latch (stored : Option ErrorKind) (e : ErrorKind) : Option ErrorKind :=
  match stored with
  | none => some e
  | some first => some first

/-- The response word `RSP[65:0]`: `STATUS = RSP[65:64]`, `DATA = RSP[63:0]` (R80). -/
def responseWord (r : Response) : BitVec 66 := errorCode r.status ++ r.data

end Sys2Proof.Machine
end

