-- ==== Sys2Proof/Machine/Operands.lean ====
section
/-! DEFINITION. The bit-cursor address mapper (spec/20_memory.md R51) and the multi-byte shift-and-mask unit
(40_mask_shift.md R90 to R105): arithmetic with no state of its own. -/

namespace Sys2Proof.Machine

/-- `idx = c div 8`, "the current byte index" (R51). -/
def byteIndex (c : Cursor) : Nat := c.toNat / 8

/-- `ofs = c mod 8`, "the intra-byte offset (0 means byte-aligned)" (R51). -/
def bitOffset (c : Cursor) : Nat := c.toNat % 8

/-- `ceil(b / 8)`, the bytes that `b` bits take (00_scope.md R10). -/
def bytesFor (b : Nat) : Nat := (b + 7) / 8

/-- `Mask(n, W)`: the low `n` bits 1, computed on natural numbers so that `n = W` needs no special case (R90, R91). It is
a partial function: its precondition is `n ≤ W` (R92; 92_eei_decisions.md D19). -/
def mask (n W : Nat) (_inRange : n ≤ W) : BitVec W := BitVec.ofNat W (2 ^ n - 1)

/-- `Trunc(W, value, n)`: the value masked to its low `n` bits, as 64 bits (R94). -/
def trunc {W : Nat} (value : BitVec W) (n : Nat) (inRange : n ≤ W) : Word64 :=
  (value &&& mask n W inRange).setWidth 64

/-- The loop of `Split` (R95): while bits remain, the low 8 bits are the next byte. `rem` saturates at 0 (R96); each turn
takes at least one bit, so `rem` turns of fuel suffice. -/
def splitTail : (fuel : Nat) → (v : Word64) → (rem : Nat) → List Byte
  | 0, _, _ => []
  | fuel + 1, v, rem => if rem = 0 then [] else v.setWidth 8 :: splitTail fuel (v >>> 8) (rem - 8)

/-- `Split(v, n, ofs)` (R95): what is ORed into the partial byte, if there is one, and the bytes to append. -/
def split (v : Word64) (n ofs : Nat) : Option Byte × List Byte :=
  if 0 < ofs then
    let k := 8 - ofs
    let head : Word64 := (v &&& (mask k 8 (Nat.sub_le 8 ofs)).setWidth 64) <<< ofs
    (some (head.setWidth 8), splitTail (n - k) (v >>> k) (n - k))
  else (none, splitTail n v n)

/-- `Extract(b, ofs, k)`: bits `ofs+k-1 .. ofs` of `b`, moved down to bit 0 (R98). -/
def extract (b : Byte) (ofs k : Nat) (inRange : k ≤ 8) : Byte := (b >>> ofs) &&& mask k 8 inRange

/-- `Place(acc, c, sh)` (R99). -/
def place (acc : Word64) (c : Byte) (sh : Nat) : Word64 := acc ||| (c.setWidth 64 <<< sh)

/-- The loop of `Gather` (R100): while bits remain, the next byte gives up to 8 of them. `none` when the bytes run out,
which is outside the domain of `Gather`. -/
def gatherLoop : List Byte → (acc : Word64) → (sh rem : Nat) → Option Word64
  | [], acc, _, rem => if rem = 0 then some acc else none
  | b :: bs, acc, sh, rem =>
    if rem = 0 then some acc
    else gatherLoop bs (place acc (extract b 0 (min 8 rem) (Nat.min_le_left 8 rem)) sh) (sh + min 8 rem) (rem - min 8 rem)

/-- A first chunk, taken from the high end of a partial byte, has at most 8 bits. -/
theorem firstChunk_le (ofs n : Nat) : min (8 - ofs) n ≤ 8 :=
  Nat.le_trans (Nat.min_le_left _ _) (Nat.sub_le 8 ofs)

/-- `Gather(B, ofs, n)` (R100). Its domain is `B` with at least `ceil((ofs + n) / 8)` bytes; `none` outside it. -/
def gather (B : List Byte) (ofs n : Nat) : Option Word64 :=
  if 0 < ofs then
    match B with
    | [] => none
    | b :: bs =>
      let k := min (8 - ofs) n
      gatherLoop bs ((extract b ofs k (firstChunk_le ofs n)).setWidth 64) k (n - k)
  else gatherLoop B 0 0 n

end Sys2Proof.Machine
end

