-- ==== Sys2Proof/Machine/Ops.lean ====
section
/-! DEFINITION. The operations the commands share: access to a byte memory (spec/00_scope.md R11), answering (30_encoding.md
R80, R81), moving a cursor, the two ways an error is taken (60_exceptions.md R176, R177; there is no return from one, R179),
`WriteBits` (41_writer.md R111), `ReadBits` (42_reader.md R132), `StickyRead` (43_sticky_reader.md R151), the skip
(42_reader.md R138), and what the host does to the block beside commands. -/

namespace Sys2Proof.Machine

/-! ### Byte memories -/

/-- The canonical form: byte indices strictly rising. -/
abbrev Memory.wf (m : Memory) : Prop := m.Pairwise (fun x y => x.1 < y.1)

/-- What an index that is not listed reads as: nothing, for such contents "do not exist" (93_implementation_defined.md
U14). -/
def Memory.unlisted : Option Byte := none

/-- `MemRead(M, a, 1)` (R11). -/
def Memory.read : Memory → Nat → Option Byte
  | [], _ => Memory.unlisted
  | (k, b) :: m, a => if k = a then some b else Memory.read m a

/-- `MemWrite(M, a, 1, b)` (R11). -/
def Memory.write : Memory → Nat → Byte → Memory
  | [], a, b => [(a, b)]
  | (k, c) :: m, a, b =>
    if a < k then (a, b) :: (k, c) :: m
    else if a = k then (a, b) :: m
    else (k, c) :: Memory.write m a b

/-- The memory that holds `bytes` at the indices from `start` up. -/
def Memory.ofBytes : (start : Nat) → (bytes : List Byte) → Memory
  | _, [] => []
  | a, b :: bs => (a, b) :: Memory.ofBytes (a + 1) bs

/-- A copy of `M[0 .. len-1]` (42_reader.md R131). -/
def Memory.below (m : Memory) (len : Nat) : Memory := m.filter (fun x => decide (x.1 < len))

/-- The bytes of a memory in index order (30_encoding.md R82). -/
def Memory.bytes (m : Memory) : List Byte := m.map Prod.snd

/-- `Bit(M, p) = M[p div 8][p mod 8]` (20_memory.md R42, R50). -/
def Memory.bit (m : Memory) (p : Nat) : Option Bool := (m.read (p / 8)).map (fun b => b.getLsbD (p % 8))

/-- The memory holds exactly the bytes at the indices `0 .. len-1` (93_implementation_defined.md U14). -/
abbrev Memory.holds (m : Memory) (len : Nat) : Prop := m.map Prod.fst = List.range len

/-! ### Responses and cursors -/

/-- Answer `STATUS`, `DATA` with no byte output (R80). -/
def State.respond (s : State) (status : Option ErrorKind) (data : Word64) : State :=
  { s with outputs := s.outputs ++ [⟨⟨status, data⟩, none⟩] }

/-- Answer `WBYTES`: `STATUS = 0`, `DATA`, and the byte output (R82). -/
def State.respondBytes (s : State) (data : Word64) (bytes : List Byte) : State :=
  { s with outputs := s.outputs ++ [⟨⟨none, data⟩, some bytes⟩] }

/-- `WCUR + n` is a cursor value (41_writer.md R118 b). -/
abbrev State.writerCanAdvance (s : State) (n : Nat) : Prop := s.wcur.toNat + n < Config.cursorLimit

/-- `RCUR + n` is a cursor value (42_reader.md R140). -/
abbrev State.readerCanAdvance (s : State) (n : Nat) : Prop := s.rcur.toNat + n < Config.cursorLimit

/-- `WCUR <- WCUR + n`, called only where `writerCanAdvance` holds, so that it never wraps. -/
def State.advanceWriter (s : State) (n : Nat) : State := { s with wcur := BitVec.ofNat 64 (s.wcur.toNat + n) }

/-- `RCUR <- RCUR + n`, called only where `readerCanAdvance` holds, so that it never wraps. -/
def State.advanceReader (s : State) (n : Nat) : State := { s with rcur := BitVec.ofNat 64 (s.rcur.toNat + n) }

/-! ### Errors -/

/-- A direct read raises an error: the response names the kind, `DATA` is 0, and nothing else changes (R176). -/
def State.raiseDirect (s : State) (e : ErrorKind) : State := s.respond (some e) 0

/-- A delegated read raises an error: the latch takes the kind, the response is `STATUS = 0`, `DATA = 0`, and nothing else
changes (R177). -/
def State.raiseSticky (s : State) (e : ErrorKind) : State :=
  { s with serr := latch s.serr e }.respond none 0

/-! ### The writer -/

/-- `len` bytes fit the capacity `WCAP` (R120). -/
def fits (capacity : Option Nat) (len : Nat) : Bool :=
  match capacity with
  | none => true
  | some cap => decide (len ≤ cap)

/-- `Append(WBUF, b)` (R11). -/
def State.appendByte (s : State) (b : Byte) : State :=
  { s with wbuf := s.wbuf.write s.wlen b, wlen := s.wlen + 1 }

/-- `Append` each byte, first to last (R111 step 2). -/
def State.appendBytes (s : State) : List Byte → State
  | [] => s
  | b :: bs => (s.appendByte b).appendBytes bs

/-- `MemWrite(WBUF, idx, 1, MemRead(WBUF, idx, 1) | head)` where there is a head (R111 step 1). `none` when the partial
byte is not there, which no reachable state shows (93_implementation_defined.md U15). -/
def State.orHead (s : State) (head : Option Byte) : Option State :=
  match head with
  | none => some s
  | some h =>
    match s.wbuf.read (byteIndex s.wcur) with
    | none => none
    | some b => some { s with wbuf := s.wbuf.write (byteIndex s.wcur) (b ||| h) }

/-- `WriteBits(W, value, n)` (R111), its guards in the order of R111. -/
def writeBits (W : Nat) (value : BitVec W) (n : Nat) (s : State) : Host.Outcome State Fault Refusal :=
  if inRange : n ≤ W then
    if s.writerCanAdvance n then
      if fits s.wcap (bytesFor (s.wcur.toNat + n)) then
        let parts := split (trunc value n inRange) n (bitOffset s.wcur)
        match s.orHead parts.1 with
        | none => .fault .absentByte
        | some s₁ => .next (((s₁.appendBytes parts.2).advanceWriter n).respond none 0)
      else .fault .stuckAtCapacity
    else .refused .writeCursorOverflow
  else .refused .writeCountTooBig

/-! ### The reader -/

/-- What `RLEN` holds after `RLEN <- len`: `len` where the register's 61 bits hold it (10_state.md R28, R31), and otherwise
a free value of those bits (assumption log 5). -/
def State.boundLength (s : State) (len : Nat) : Nat :=
  if len < Config.sourceLimit then len else (Config.freeLength s.freeDraws).toNat

/-- The free values drawn after `RLEN <- len`. -/
def State.drawsAfter (s : State) (len : Nat) : Nat :=
  if len < Config.sourceLimit then s.freeDraws else s.freeDraws + 1

/-- `RSRC <- copy of source[0 .. len-1] ; RLEN <- len ; RCUR <- 0 ; RBOUND <- 1 ; SERR <- 0` (42_reader.md R130, R131).
`RSRC` is "indexed `0 .. RLEN-1`" (R28), so of the copy it holds what lies below the new `RLEN`. -/
def State.bindReader (s : State) (source : Memory) (len : Nat) : State :=
  { s with
    rsrc := source.below (s.boundLength len), rlen := s.boundLength len, rcur := 0, rbound := true, serr := none,
    freeDraws := s.drawsAfter len }

/-- The bytes a read finds at increasing indices, each checked against `RLEN` before use (20_memory.md R53). -/
inductive Fetched where
  /-- Every byte needed is there. -/
  | bytes (B : List Byte)
  /-- An index at or above `RLEN` was reached. -/
  | endOfData
  /-- A byte below `RLEN` is not in `RSRC`; no reachable state shows this. -/
  | absent
  deriving DecidableEq, Repr

/-- Fetch `count` bytes of the source from byte index `idx` up. -/
def fetchBytes (source : Memory) (len : Nat) : (idx count : Nat) → Fetched
  | _, 0 => .bytes []
  | idx, count + 1 =>
    if len ≤ idx then .endOfData
    else
      match source.read idx with
      | none => .absent
      | some b =>
        match fetchBytes source len (idx + 1) count with
        | .bytes B => .bytes (b :: B)
        | .endOfData => .endOfData
        | .absent => .absent

/-- What `ReadBits` ends in. -/
inductive ReadResult where
  /-- The value, with the cursor to be advanced by the count. -/
  | value (v : Word64)
  /-- `raise e` (00_scope.md R12). -/
  | raised (e : ErrorKind)
  /-- The update would make `RCUR ≥ 2^64` (10_state.md R27). -/
  | overflow
  /-- A byte below `RLEN` is not in `RSRC`. -/
  | absent
  deriving DecidableEq, Repr

/-- `ReadBits(W, n)` after its guard (R132): the count is checked first, then zero width, then every byte needed, and
the value is `Gather` of those bytes (R132; R54: the checks made per byte or before are indistinguishable). -/
def readBits (W n : Nat) (s : State) : ReadResult :=
  if W < n then .raised .bitCountTooBig
  else if n = 0 then .value 0
  else
    match fetchBytes s.rsrc s.rlen (byteIndex s.rcur) (bytesFor (bitOffset s.rcur + n)) with
    | .endOfData => .raised .unexpectedEndOfData
    | .absent => .absent
    | .bytes B =>
      match gather B (bitOffset s.rcur) n with
      | none => .absent
      | some v => if s.readerCanAdvance n then .value v else .overflow

/-- A direct read of `n` bits into `W` (R134): the value and an advanced cursor, or the error in the response. -/
def directRead (W n : Nat) (s : State) : Host.Outcome State Fault Refusal :=
  if s.rbound then
    match readBits W n s with
    | .value v => .next ((s.advanceReader n).respond none v)
    | .raised e => .next (s.raiseDirect e)
    | .overflow => .refused .readCursorOverflow
    | .absent => .fault .absentByte
  else .refused .readerUnbound

/-- `StickyRead(W, n)` (43_sticky_reader.md R151). -/
def stickyRead (W n : Nat) (s : State) : Host.Outcome State Fault Refusal :=
  if s.rbound then
    match s.serr with
    | some _ => .next (s.respond none 0)
    | none =>
      match readBits W n s with
      | .value v => .next ((s.advanceReader n).respond none v)
      | .raised e => .next (s.raiseSticky e)
      | .overflow => .refused .readCursorOverflow
      | .absent => .fault .absentByte
  else .refused .readerUnbound

/-- Advance the reader's cursor by `k` "without reading or validating" (R138). -/
def skipBits (k : Nat) (s : State) : Host.Outcome State Fault Refusal :=
  if s.rbound then
    if s.readerCanAdvance k then .next ((s.advanceReader k).respond none 0) else .refused .skipCursorOverflow
  else .refused .readerUnbound

/-! ### What the host does beside commands -/

/-- The host places a whole sequence in `XSRC` (R192 (3)); `XLEN < 2^61` (assumption log 2). -/
def placeSource (bytes : List Byte) (s : State) : Host.Outcome State Fault Refusal :=
  if bytes.length < Config.sourceLimit then .next { s with xsrc := bytes } else .refused .sourceTooLong

/-- Reset puts every piece of the block's state at its reset value (R190); the host's side and the count of free values
drawn stay (assumption log 3, 14). -/
def resetBlock (s : State) : State :=
  { State.reset with wcap := s.wcap, xsrc := s.xsrc, inputs := s.inputs, outputs := s.outputs,
                     freeDraws := s.freeDraws }

/-- A run as the host sets it up (R193): the reset state with a capacity, an external sequence and a finite list of
command words. DESIGN CHOICE (assumption log 2): `launch` takes any finite sequence, as R8 says, also one of `2^61` bytes
or more, which the open parameters of 92_eei_decisions.md leave out and `placeSource` refuses; `RNEW.X` over such a one
binds a free length. -/
def launch (capacity : Option Nat) (source : List Byte) (words : List CommandWord) : State :=
  { State.reset with wcap := capacity, xsrc := source, inputs := words.map .command }

end Sys2Proof.Machine
end

