-- ==== Sys2Proof/Machine/Reader.lean ====
section
/-! DEFINITION. The bit-unpacking reader's commands (spec/42_reader.md). None reads or writes the latch `SERR`, but that
`RNEW.X` and `RNEW.W` clear it. -/

namespace Sys2Proof.Machine

/-- `RNEW.X` (R130): bind a copy of `XSRC[0 .. XLEN-1]`. Where `XLEN ≥ 2^61`, which only `launch` lets in, the length bound
is a free value: the model's choice (assumption log 2, 5). -/
def execRnewX (s : State) : Host.Outcome State Fault Refusal :=
  .next ((s.bindReader (Memory.ofBytes 0 s.xsrc) s.xsrc.length).respond none 0)

/-- `RNEW.W` (R131): bind a copy of `WBUF[0 .. WLEN-1]`. Where `WLEN = 2^61` the length bound is a free value (assumption
log 5). -/
def execRnewW (s : State) : Host.Outcome State Fault Refusal :=
  .next ((s.bindReader s.wbuf s.wlen).respond none 0)

/-- `RDB` (R133): `ReadBits(8, 1)`. -/
def execRdb (s : State) : Host.Outcome State Fault Refusal := directRead 8 1 s

/-- `RD8 n` (R134): `ReadBits(8, n)`. -/
def execRd8 (n : Nat) (s : State) : Host.Outcome State Fault Refusal := directRead 8 n s

/-- `RD16 n` (R135): `ReadBits(16, n)`. -/
def execRd16 (n : Nat) (s : State) : Host.Outcome State Fault Refusal := directRead 16 n s

/-- `RD32 n` (R136): `ReadBits(32, n)`. -/
def execRd32 (n : Nat) (s : State) : Host.Outcome State Fault Refusal := directRead 32 n s

/-- `RD64 n` (R137): `ReadBits(64, n)`. -/
def execRd64 (n : Nat) (s : State) : Host.Outcome State Fault Refusal := directRead 64 n s

/-- `RSKIP k` (R138): `RCUR <- RCUR + k`, unchecked against `RLEN`. -/
def execRskip (k : Nat) (s : State) : Host.Outcome State Fault Refusal := skipBits k s

end Sys2Proof.Machine
end

