-- ==== Sys2Proof/Machine/Sticky.lean ====
section
/-! DEFINITION. The sticky wrapper's commands (spec/43_sticky_reader.md): the latch `SERR` in front of the one reader. -/

namespace Sys2Proof.Machine

/-- `SRDB` (R152): `StickyRead(8, 1)`. -/
def execSrdb (s : State) : Host.Outcome State Fault Refusal := stickyRead 8 1 s

/-- `SRD8 n` (R153): `StickyRead(8, n)`. -/
def execSrd8 (n : Nat) (s : State) : Host.Outcome State Fault Refusal := stickyRead 8 n s

/-- `SRD16 n` (R154): `StickyRead(16, n)`. -/
def execSrd16 (n : Nat) (s : State) : Host.Outcome State Fault Refusal := stickyRead 16 n s

/-- `SRD32 n` (R155): `StickyRead(32, n)`. -/
def execSrd32 (n : Nat) (s : State) : Host.Outcome State Fault Refusal := stickyRead 32 n s

/-- `SRD64 n` (R156): `StickyRead(64, n)`. -/
def execSrd64 (n : Nat) (s : State) : Host.Outcome State Fault Refusal := stickyRead 64 n s

/-- `SSKIP k` (R157): exactly `RSKIP k`, whatever `SERR` holds. -/
def execSskip (k : Nat) (s : State) : Host.Outcome State Fault Refusal := skipBits k s

/-- `SERRQ` (R158): `DATA = zext_64(SERR)`; the latch is not cleared. -/
def execSerrq (s : State) : Host.Outcome State Fault Refusal :=
  if s.rbound then .next (s.respond none ((errorCode s.serr).setWidth 64)) else .refused .readerUnbound

end Sys2Proof.Machine
end

