-- ==== Sys2Proof/Machine/Writer.lean ====
section
/-! DEFINITION. The bit-packing writer's commands (spec/41_writer.md). None raises an error or writes a flag. -/

namespace Sys2Proof.Machine

/-- `WNEW` (R110): `WCUR <- 0 ; WLEN <- 0`, which empties `WBUF`. -/
def execWnew (s : State) : Host.Outcome State Fault Refusal :=
  .next ({ s with wcur := 0, wlen := 0, wbuf := [] }.respond none 0)

/-- `WRB b` (R112): `WriteBits(8, zext_8(b), 1)`; true is the bit 1. -/
def execWrb (b : Bool) (s : State) : Host.Outcome State Fault Refusal :=
  writeBits 8 ((BitVec.ofBool b).setWidth 8) 1 s

/-- `WR8 v, n` (R113): `WriteBits(8, v, n)`. -/
def execWr8 (v : BitVec 8) (n : Nat) (s : State) : Host.Outcome State Fault Refusal := writeBits 8 v n s

/-- `WR16 v, n` (R114): `WriteBits(16, v, n)`. -/
def execWr16 (v : BitVec 16) (n : Nat) (s : State) : Host.Outcome State Fault Refusal := writeBits 16 v n s

/-- `WR32 v, n` (R115): `WriteBits(32, v, n)`. -/
def execWr32 (v : BitVec 32) (n : Nat) (s : State) : Host.Outcome State Fault Refusal := writeBits 32 v n s

/-- `WR64 v, n` (R116): `WriteBits(64, v, n)`. -/
def execWr64 (v : BitVec 64) (n : Nat) (s : State) : Host.Outcome State Fault Refusal := writeBits 64 v n s

/-- `WBYTES` (R117): `DATA = zext_64(WLEN)`, the bytes `WBUF[0], ..., WBUF[WLEN-1]` on the byte output, no state
change. -/
def execWbytes (s : State) : Host.Outcome State Fault Refusal :=
  .next (s.respondBytes (BitVec.ofNat 64 s.wlen) (s.wbuf.below s.wlen).bytes)

end Sys2Proof.Machine
end

