-- ==== Sys2Proof/Machine/Dispatch.lean ====
section
/-! DEFINITION. One arm per command: each is one call of the command's meaning. -/

namespace Sys2Proof.Machine

def exec (i : Instr) (s : State) : Host.Outcome State Fault Refusal :=
  match i with
  | .wnew => Sys2Proof.Machine.execWnew s
  | .wrb b => Sys2Proof.Machine.execWrb b s
  | .wr8 v n => Sys2Proof.Machine.execWr8 v n s
  | .wr16 v n => Sys2Proof.Machine.execWr16 v n s
  | .wr32 v n => Sys2Proof.Machine.execWr32 v n s
  | .wr64 v n => Sys2Proof.Machine.execWr64 v n s
  | .wbytes => Sys2Proof.Machine.execWbytes s
  | .rnewX => Sys2Proof.Machine.execRnewX s
  | .rnewW => Sys2Proof.Machine.execRnewW s
  | .rdb => Sys2Proof.Machine.execRdb s
  | .rd8 n => Sys2Proof.Machine.execRd8 n s
  | .rd16 n => Sys2Proof.Machine.execRd16 n s
  | .rd32 n => Sys2Proof.Machine.execRd32 n s
  | .rd64 n => Sys2Proof.Machine.execRd64 n s
  | .rskip k => Sys2Proof.Machine.execRskip k s
  | .srdb => Sys2Proof.Machine.execSrdb s
  | .srd8 n => Sys2Proof.Machine.execSrd8 n s
  | .srd16 n => Sys2Proof.Machine.execSrd16 n s
  | .srd32 n => Sys2Proof.Machine.execSrd32 n s
  | .srd64 n => Sys2Proof.Machine.execSrd64 n s
  | .sskip k => Sys2Proof.Machine.execSskip k s
  | .serrq => Sys2Proof.Machine.execSerrq s

end Sys2Proof.Machine
end

