-- ==== Sys2Proof/Machine/Step.lean ====
section
/-! DEFINITION. One step: the next thing the host does, performed completely (spec/00_scope.md R14, 10_state.md R21). -/

namespace Sys2Proof.Machine

/-- One step. A command word is taken from the port, decoded and executed; a reserved word is refused (30_encoding.md
R75). With nothing on the port nothing happens: "Nothing happens in the block except as the direct effect of a command"
(60_exceptions.md R178; assumption log 4). -/
def step (s : State) : Host.Outcome State Fault Refusal :=
  match s.inputs with
  | [] => .next s
  | .command w :: rest =>
    match decode w with
    | .command i => exec i { s with inputs := rest }
    | .invalid why => .refused (.reservedEncoding why)
  | .placeSource bytes :: rest => placeSource bytes { s with inputs := rest }
  | .reset :: rest => .next (resetBlock { s with inputs := rest })

/-- The host presents this command word next. There is no fetch: "Commands are never fetched from `WBUF`, `RSRC` or any
memory the block can write" (20_memory.md R61). -/
def State.withFetchWord (s : State) (nbits w : Nat) : State :=
  { s with inputs := .command (tableWord nbits w) :: s.inputs }

/-- A list of commands executed "first to last with no branching" (10_state.md R21), ending at the first that is refused
or stuck. -/
def runCommands : List Instr → State → Host.Outcome State Fault Refusal
  | [], s => .next s
  | i :: is, s =>
    match exec i s with
    | .next t => runCommands is t
    | .fault r => .fault r
    | .refused r => .refused r

end Sys2Proof.Machine
end

