-- ==== Sys2Proof/Machine/Assembler.lean ====
section
/-! DEFINITION. The assembler syntax of spec/30_encoding.md R77: one command per line, the mnemonic in upper case, operands
separated by a comma, `;` before a comment, numbers decimal, `0x` hexadecimal or `0b` binary. Text is a list of characters.
What R77 leaves to the reader of a line (white space, the case of hexadecimal digits) is assumption log 7. -/

namespace Sys2Proof.Machine

/-- Why a line is rejected. -/
inductive AssembleError where
  /-- The first word is no mnemonic of R77. -/
  | unknownMnemonic
  /-- The mnemonic takes another number of operands. -/
  | operandCount
  /-- An operand is not a number. -/
  | notANumber
  /-- "An assembler must reject an operand outside its range rather than truncate it" (R77). -/
  | outOfRange
  deriving DecidableEq, Repr

/-- What one line assembles to. -/
inductive Assembled where
  /-- Nothing but white space and a comment. -/
  | blank
  | command (i : Instr)
  | error (why : AssembleError)
  deriving DecidableEq, Repr

/-- White space inside a line. -/
def isSpace (c : Char) : Bool := c = ' ' || c = '\t' || c = '\r'

/-- A text without white space at its ends. -/
def trimSpaces (cs : List Char) : List Char := ((cs.dropWhile isSpace).reverse.dropWhile isSpace).reverse

/-- The parts of a text between the occurrences of a separator. -/
def splitAt (sep : Char) : List Char → List (List Char)
  | [] => [[]]
  | c :: cs =>
    if c = sep then [] :: splitAt sep cs
    else
      match splitAt sep cs with
      | [] => [[c]]
      | part :: parts => (c :: part) :: parts

/-- The value of a digit of a base up to 16. -/
def digitValue (base : Nat) (c : Char) : Option Nat :=
  let d :=
    if '0'.toNat ≤ c.toNat ∧ c.toNat ≤ '9'.toNat then c.toNat - '0'.toNat
    else if 'A'.toNat ≤ c.toNat ∧ c.toNat ≤ 'F'.toNat then c.toNat - 'A'.toNat + 10
    else if 'a'.toNat ≤ c.toNat ∧ c.toNat ≤ 'f'.toNat then c.toNat - 'a'.toNat + 10
    else 16
  if d < base then some d else none

/-- The value of digits, most significant first. -/
def digitsValue (base : Nat) : List Char → (acc : Nat) → Option Nat
  | [], acc => some acc
  | c :: cs, acc =>
    match digitValue base c with
    | none => none
    | some d => digitsValue base cs (acc * base + d)

/-- At least one digit. -/
def someDigits (base : Nat) (cs : List Char) : Option Nat := if cs = [] then none else digitsValue base cs 0

/-- "Numbers are decimal, `0x` hexadecimal or `0b` binary" (R77). -/
def numberValue : List Char → Option Nat
  | '0' :: 'x' :: cs => someDigits 16 cs
  | '0' :: 'b' :: cs => someDigits 2 cs
  | cs => someDigits 10 cs

/-- A number below `limit`, given to `use`. -/
def operandBelow (limit : Nat) (operand : List Char) (use : Nat → Assembled) : Assembled :=
  match numberValue operand with
  | none => .error .notANumber
  | some v => if v < limit then use v else .error .outOfRange

/-- How a command's operands are written. -/
inductive OperandShape where
  /-- No operand. -/
  | bare (i : Instr)
  /-- One operand below `limit`. -/
  | one (limit : Nat) (i : Nat → Instr)
  /-- A value `0 ≤ v < 2^W` and a count `0 ≤ n ≤ 255`. -/
  | valueAndCount (W : Nat) (i : BitVec W → Nat → Instr)

/-- The operand texts of a command, read in its shape. -/
def OperandShape.assemble : OperandShape → List (List Char) → Assembled
  | .bare i, [] => .command i
  | .one limit i, [a] => operandBelow limit a (fun v => .command (i v))
  | .valueAndCount W i, [a, b] =>
    operandBelow (2 ^ W) a (fun v => operandBelow (2 ^ 8) b (fun n => .command (i (BitVec.ofNat W v) n)))
  | .bare _, _ => .error .operandCount
  | .one _ _, _ => .error .operandCount
  | .valueAndCount _ _, _ => .error .operandCount

/-- A row of the table of R77. -/
structure AssemblyRow where
  mnemonic : String
  shape : OperandShape

/-- The writer's rows of R77. -/
def writerSyntax : List AssemblyRow :=
  [⟨"WNEW", .bare .wnew⟩,
   ⟨"WRB", .one 2 (fun b => .wrb (b == 1))⟩,
   ⟨"WR8", .valueAndCount 8 .wr8⟩,
   ⟨"WR16", .valueAndCount 16 .wr16⟩,
   ⟨"WR32", .valueAndCount 32 .wr32⟩,
   ⟨"WR64", .valueAndCount 64 .wr64⟩,
   ⟨"WBYTES", .bare .wbytes⟩]

/-- The direct reader's rows of R77. -/
def readerSyntax : List AssemblyRow :=
  [⟨"RNEW.X", .bare .rnewX⟩,
   ⟨"RNEW.W", .bare .rnewW⟩,
   ⟨"RDB", .bare .rdb⟩,
   ⟨"RD8", .one (2 ^ 8) .rd8⟩,
   ⟨"RD16", .one (2 ^ 8) .rd16⟩,
   ⟨"RD32", .one (2 ^ 8) .rd32⟩,
   ⟨"RD64", .one (2 ^ 8) .rd64⟩,
   ⟨"RSKIP", .one (2 ^ 64) .rskip⟩]

/-- The sticky wrapper's rows of R77. -/
def stickySyntax : List AssemblyRow :=
  [⟨"SRDB", .bare .srdb⟩,
   ⟨"SRD8", .one (2 ^ 8) .srd8⟩,
   ⟨"SRD16", .one (2 ^ 8) .srd16⟩,
   ⟨"SRD32", .one (2 ^ 8) .srd32⟩,
   ⟨"SRD64", .one (2 ^ 8) .srd64⟩,
   ⟨"SSKIP", .one (2 ^ 64) .sskip⟩,
   ⟨"SERRQ", .bare .serrq⟩]

/-- The table of R77. -/
def assemblyTable : List AssemblyRow := writerSyntax ++ readerSyntax ++ stickySyntax

/-- A mnemonic with its operand texts. -/
def assembleCommand (name : List Char) (ops : List (List Char)) : Assembled :=
  match assemblyTable.find? (fun row => row.mnemonic.toList == name) with
  | some row => row.shape.assemble ops
  | none => .error .unknownMnemonic

/-- The operands after a mnemonic, separated by commas; white space alone is no operand. -/
def operandsOf (cs : List Char) : List (List Char) :=
  if trimSpaces cs = [] then [] else (splitAt ',' cs).map trimSpaces

/-- What stands on a line before its comment: "`;` starts a comment" (R77). -/
def lineBody (line : List Char) : List Char := trimSpaces (line.takeWhile (fun c => c != ';'))

/-- The first word of a line. -/
def lineMnemonic (line : List Char) : List Char := (lineBody line).takeWhile (fun c => !isSpace c)

/-- The texts of a line's operands. -/
def lineOperands (line : List Char) : List (List Char) :=
  operandsOf ((lineBody line).dropWhile (fun c => !isSpace c))

/-- One line (R77). -/
def assembleLine (line : List Char) : Assembled :=
  if lineBody line = [] then .blank else assembleCommand (lineMnemonic line) (lineOperands line)

/-- The commands of lines that all assemble, in order; `none` if one is rejected. -/
def assembleLines : List (List Char) → Option (List Instr)
  | [] => some []
  | line :: lines =>
    match assembleLine line with
    | .blank => assembleLines lines
    | .command i => (assembleLines lines).map (fun is => i :: is)
    | .error _ => none

/-- A program text: "One command per line" (R77). -/
def assembleProgram (text : List Char) : Option (List Instr) := assembleLines (splitAt '\n' text)

end Sys2Proof.Machine
end

