-- ==== Sys2Proof/Safety.lean ====
section
/-! DEFINITION. The terms of the statements: the invariant of the block's states, the halves of the state a command may
or may not touch (spec/10_state.md R34), and the bit strings a writer has written and a reader reads (20_memory.md
R43). -/

namespace Sys2Proof.Machine

/-- The reader half of the state before any `RNEW.X`, `RNEW.W` since reset (10_state.md R29, R36). -/
abbrev State.readerPristine (s : State) : Prop := s.rcur = 0 ∧ s.rlen = 0 ∧ s.rsrc = [] ∧ s.serr = none

/-- The invariant of the block. Every field but `xsrcBound`, which limits an input of the host, is a rule about the
states the block reaches. -/
structure State.Inv (s : State) : Prop where
  /-- `WBUF` holds exactly the bytes at `0 .. WLEN-1` (R24; 93_implementation_defined.md U14). -/
  wbufHolds : s.wbuf.holds s.wlen
  /-- The length invariant: `WLEN = ceil(WCUR / 8)` (R25). -/
  length : s.wlen = bytesFor s.wcur.toNat
  /-- The padding invariant: every bit of `WBUF` at a bit address at or above `WCUR` is 0 (R26). -/
  padding : ∀ p < 8 * s.wlen, s.wcur.toNat ≤ p → s.wbuf.bit p = some false
  /-- `WLEN ≤ WCAP` (41_writer.md R120). -/
  capacity : fits s.wcap s.wlen = true
  /-- `RSRC` holds exactly the bytes at `0 .. RLEN-1` (R28; 93_implementation_defined.md U14). -/
  rsrcHolds : s.rsrc.holds s.rlen
  /-- `RLEN` is "a natural number below `2^61`" (R28, R31). -/
  rlenBound : s.rlen < Config.sourceLimit
  /-- The reader does not exist before it is created (R29, R36). -/
  unbound : s.rbound = false → s.readerPristine
  /-- `XLEN < 2^61` (92_eei_decisions.md, open parameters). -/
  xsrcBound : s.xsrc.length < Config.sourceLimit

/-- The writer's half of the state is the same in `s` and `t`. -/
abbrev State.sameWriter (s t : State) : Prop := t.wcur = s.wcur ∧ t.wlen = s.wlen ∧ t.wbuf = s.wbuf

/-- The reader's source and binding are the same. -/
abbrev State.sameSource (s t : State) : Prop := t.rlen = s.rlen ∧ t.rsrc = s.rsrc ∧ t.rbound = s.rbound

/-- The reader's half of the state is the same. -/
abbrev State.sameReader (s t : State) : Prop := t.rcur = s.rcur ∧ s.sameSource t ∧ t.serr = s.serr

/-- What the host supplies is the same: the parameters and what stands on the port. -/
abbrev State.sameHost (s t : State) : Prop := t.wcap = s.wcap ∧ t.xsrc = s.xsrc ∧ t.inputs = s.inputs

/-- The command answered `STATUS`, `DATA` and nothing more (30_encoding.md R80). -/
abbrev State.answered (s t : State) (status : Option ErrorKind) (data : Word64) : Prop :=
  t.outputs = s.outputs ++ [⟨⟨status, data⟩, none⟩]

/-- The commands that create a reader (42_reader.md R130, R131). -/
def createsReader : Instr → Bool
  | .rnewX | .rnewW => true
  | .wnew | .wrb _ | .wr8 _ _ | .wr16 _ _ | .wr32 _ _ | .wr64 _ _ | .wbytes | .rdb | .rd8 _ | .rd16 _ | .rd32 _
  | .rd64 _ | .rskip _ | .srdb | .srd8 _ | .srd16 _ | .srd32 _ | .srd64 _ | .sskip _ | .serrq => false

/-- The five write commands as `WriteBits` sees them: the container width, the value, and the count (41_writer.md R112 to
R116). -/
structure WriteForm where
  width : Nat
  value : BitVec width
  count : Nat

/-- A write command with the arguments of its `WriteBits`. -/
def writeForm : Instr → Option WriteForm
  | .wrb b => some ⟨8, (BitVec.ofBool b).setWidth 8, 1⟩
  | .wr8 v n => some ⟨8, v, n⟩
  | .wr16 v n => some ⟨16, v, n⟩
  | .wr32 v n => some ⟨32, v, n⟩
  | .wr64 v n => some ⟨64, v, n⟩
  | .wnew | .wbytes | .rnewX | .rnewW | .rdb | .rd8 _ | .rd16 _ | .rd32 _ | .rd64 _ | .rskip _ | .srdb | .srd8 _
  | .srd16 _ | .srd32 _ | .srd64 _ | .sskip _ | .serrq => none

/-- A direct read command with the width and count of its `ReadBits` (42_reader.md R133 to R137). -/
def directForm : Instr → Option (Nat × Nat)
  | .rdb => some (8, 1)
  | .rd8 n => some (8, n)
  | .rd16 n => some (16, n)
  | .rd32 n => some (32, n)
  | .rd64 n => some (64, n)
  | .wnew | .wrb _ | .wr8 _ _ | .wr16 _ _ | .wr32 _ _ | .wr64 _ _ | .wbytes | .rnewX | .rnewW | .rskip _ | .srdb
  | .srd8 _ | .srd16 _ | .srd32 _ | .srd64 _ | .sskip _ | .serrq => none

/-- A sticky read command with the width and count of its `StickyRead` (43_sticky_reader.md R152 to R156). -/
def stickyForm : Instr → Option (Nat × Nat)
  | .srdb => some (8, 1)
  | .srd8 n => some (8, n)
  | .srd16 n => some (16, n)
  | .srd32 n => some (32, n)
  | .srd64 n => some (64, n)
  | .wnew | .wrb _ | .wr8 _ _ | .wr16 _ _ | .wr32 _ _ | .wr64 _ _ | .wbytes | .rnewX | .rnewW | .rdb | .rd8 _
  | .rd16 _ | .rd32 _ | .rd64 _ | .rskip _ | .sskip _ | .serrq => none

/-- The operands of a command as the numbers its line writes, in the order of R77. -/
def operandValues : Instr → List Nat
  | .wrb b => [b.toNat]
  | .wr8 v n => [v.toNat, n]
  | .wr16 v n => [v.toNat, n]
  | .wr32 v n => [v.toNat, n]
  | .wr64 v n => [v.toNat, n]
  | .rd8 n | .rd16 n | .rd32 n | .rd64 n | .srd8 n | .srd16 n | .srd32 n | .srd64 n => [n]
  | .rskip k | .sskip k => [k]
  | .wnew | .wbytes | .rnewX | .rnewW | .rdb | .srdb | .serrq => []

/-- The limit each operand of a command's line stays below: the table of 30_encoding.md R77, read apart from the
assembler. It depends on the mnemonic alone. -/
def operandLimits : Instr → List Nat
  | .wrb _ => [2]
  | .wr8 _ _ => [2 ^ 8, 256]
  | .wr16 _ _ => [2 ^ 16, 256]
  | .wr32 _ _ => [2 ^ 32, 256]
  | .wr64 _ _ => [2 ^ 64, 256]
  | .rd8 _ | .rd16 _ | .rd32 _ | .rd64 _ | .srd8 _ | .srd16 _ | .srd32 _ | .srd64 _ => [256]
  | .rskip _ | .sskip _ => [2 ^ 64]
  | .wnew | .wbytes | .rnewX | .rnewW | .rdb | .srdb | .serrq => []

end Sys2Proof.Machine
end

