-- ==== Sys2Proof/Certificates/Slice0/Obligations.lean ====
section
/-! DEFINITION. The statements about the model, each a `def Obligations.<Name> : Prop`, stated from the numbered rules of
spec/. `s` is the state before, `t` after. `writeForm`, `directForm` and `stickyForm` (Safety.lean) say which commands a
statement covers and with which container width and count. -/

open Sys2Proof Sys2Proof.Machine

/-! ### Encoding (30_encoding.md) -/

/-- `Decode(Encode(c)) = c` for every command with in-range operands (R83). -/
def Obligations.DecodeAfterEncodeIsIdentity : Prop :=
  ∀ i : Instr, i.wellFormed = true → decode (encode i) = .command i

/-- `Encode(Decode(w)) = w` for every word that is not invalid, and what is decoded has its operands in range (R83). -/
def Obligations.EncodeAfterDecodeIsIdentity : Prop :=
  ∀ (w : CommandWord) (i : Instr), decode w = .command i → i.wellFormed = true ∧ encode i = w

/-- The opcode map: a word is a row's command if and only if it matches the row under its mask, with the operands read
from the word; the rows are disjoint and there is no other command (R74, its worked encodings with it). -/
def Obligations.OpcodeMapAgreesWithDecoder : Prop :=
  (∀ row ∈ opcodeTable, ∀ w, row.accepts w ↔ decode w = .command (row.command w)) ∧
  (∀ row ∈ opcodeTable, ∀ w, (row.command w).mnemonic = row.mnemonic) ∧
  opcodeTable.Pairwise (fun a b => ∀ w, ¬ (a.accepts w ∧ b.accepts w)) ∧
  (∀ w i, decode w = .command i → ∃ row ∈ opcodeTable, row.accepts w ∧ row.command w = i) ∧
  encode (.wr8 0x1D 5) = 0x2105000000000000001D ∧
  encode (.wr16 0xABC 12) = 0x220C0000000000000ABC ∧
  encode (.rd16 10) = 0x520A0000000000000000 ∧
  encode (.rskip 3) = 0x60000000000000000003 ∧
  encode (.wrb true) = 0x20000000000000000001

/-- The reserved encodings, field by field, are the words that match no row; the decoder returns `invalid` for each, and
a step that takes one from the port is refused (R75). -/
def Obligations.ReservedWordsAreInvalidAndRefused : Prop :=
  ∀ w : CommandWord,
    let f := fieldsOf w
    ((f.op = 0x0 ∨ 0xA ≤ f.op.toNat ∨
      ((f.op = 0x2 ∨ f.op = 0x5 ∨ f.op = 0x7) ∧ 5 ≤ f.sub.toNat) ∨
      (f.op = 0x4 ∧ 2 ≤ f.sub.toNat) ∨
      ((f.op = 0x1 ∨ f.op = 0x3 ∨ f.op = 0x6 ∨ f.op = 0x8 ∨ f.op = 0x9) ∧ f.sub ≠ 0) ∨
      ((f.op = 0x1 ∨ f.op = 0x3 ∨ f.op = 0x4 ∨ f.op = 0x6 ∨ f.op = 0x8 ∨ f.op = 0x9) ∧ f.bc ≠ 0) ∨
      ((f.op = 0x2 ∨ f.op = 0x5 ∨ f.op = 0x7) ∧ f.sub = 0 ∧ f.bc ≠ 0) ∨
      ((f.op = 0x1 ∨ f.op = 0x3 ∨ f.op = 0x4 ∨ f.op = 0x5 ∨ f.op = 0x7 ∨ f.op = 0x9) ∧ f.val ≠ 0) ∨
      (f.op = 0x2 ∧ f.sub = 0 ∧ 2 ^ 1 ≤ f.val.toNat) ∨
      (f.op = 0x2 ∧ f.sub = 1 ∧ 2 ^ 8 ≤ f.val.toNat) ∨
      (f.op = 0x2 ∧ f.sub = 2 ∧ 2 ^ 16 ≤ f.val.toNat) ∨
      (f.op = 0x2 ∧ f.sub = 3 ∧ 2 ^ 32 ≤ f.val.toNat))
      ↔ ∀ row ∈ opcodeTable, ¬ row.accepts w) ∧
    ((∀ row ∈ opcodeTable, ¬ row.accepts w) ↔ ∃ why, decode w = .invalid why) ∧
    (∀ (s : State) (rest : List HostInput) (why : Rejection), decode w = .invalid why →
      step { s with inputs := .command w :: rest } = .refused (.reservedEncoding why))

/-- A step runs the decoded command: the word leaves the port and `exec` of its command is the step (00_scope.md R14,
10_state.md R21). -/
def Obligations.StepExecutesTheDecodedCommand : Prop :=
  (∀ (s : State) (w : CommandWord) (rest : List HostInput) (i : Instr),
    s.inputs = .command w :: rest → decode w = .command i → step s = exec i { s with inputs := rest }) ∧
  (∀ (s : State) (rest : List HostInput) (i : Instr), s.inputs = .command (encode i) :: rest → i.wellFormed = true →
    step s = exec i { s with inputs := rest })

/-- Words written out from the encodings of R74 and 95_test_vectors.md section 2.4 decode to their commands, one or more
of every group of R67, and one reserved word to `invalid`. That its reason is called `nonzeroVal` is the model's own name
(assumption log 10). -/
def Obligations.WordsOfTheSpecDecode : Prop :=
  decode 0x10000000000000000000 = .command .wnew ∧
  decode 0x20000000000000000001 = .command (.wrb true) ∧
  decode 0x21FF00000000000000FF = .command (.wr8 0xFF 255) ∧
  decode 0x2441FFFFFFFFFFFFFFFF = .command (.wr64 0xFFFFFFFFFFFFFFFF 65) ∧
  decode 0x30000000000000000000 = .command .wbytes ∧
  decode 0x41000000000000000000 = .command .rnewW ∧
  decode 0x54400000000000000000 = .command (.rd64 64) ∧
  decode 0x6000FFFFFFFFFFFFFFFF = .command (.rskip 18446744073709551615) ∧
  decode 0x74410000000000000000 = .command (.srd64 65) ∧
  decode 0x80000000000000000008 = .command (.sskip 8) ∧
  decode 0x90000000000000000000 = .command .serrq ∧
  decode 0x2209000000000001FFFF = .invalid .nonzeroVal

/-- A run of encoded command words taken from the port step by step is the run of the commands (70_reset_and_hazards.md
R193). -/
def Obligations.EncodedRunIsCommandRun : Prop :=
  ∀ (is : List Instr) (s : State) (rest : List HostInput), (∀ i ∈ is, i.wellFormed = true) →
    Sys2Proof.core.run is.length { s with inputs := is.map (fun i => .command (encode i)) ++ rest }
      = runCommands is { s with inputs := rest }

/-- The response word: `STATUS` in its bits 65:64 and `DATA` in its bits 63:0, and the value 3 is never produced (R80). -/
def Obligations.ResponseWordFields : Prop :=
  ∀ r : Response,
    (responseWord r).extractLsb' 64 2 = errorCode r.status ∧ (responseWord r).extractLsb' 0 64 = r.data ∧
    errorCode r.status ≠ 3 ∧ errorCode none = 0 ∧ errorCode (some .bitCountTooBig) = 1 ∧
    errorCode (some .unexpectedEndOfData) = 2

/-- The assembler never truncates an operand (R77). A line that assembles gives a well-formed command of the line's own
mnemonic whose operands are, in order, the numbers the line writes. Of a line whose mnemonic is a command's and whose
operands are as many numbers as it takes: one at or above its limit makes the line rejected as out of range, and if none
is, the line assembles to a command of that mnemonic with those operands. How a line's text is cut into mnemonic and
operands at white space is the model's choice (assumption log 7). -/
def Obligations.AssembledCommandsAreWellFormed : Prop :=
  ∀ line : List Char,
    (∀ i, assembleLine line = .command i →
      i.wellFormed = true ∧ lineMnemonic line = i.mnemonic.toList ∧
      (lineOperands line).map numberValue = (operandValues i).map some) ∧
    (∀ (i : Instr) (vals : List Nat), lineMnemonic line = i.mnemonic.toList →
      (lineOperands line).map numberValue = vals.map some → vals.length = (operandLimits i).length →
      ((∃ p ∈ vals.zip (operandLimits i), p.2 ≤ p.1) → assembleLine line = .error .outOfRange) ∧
      ((∀ p ∈ vals.zip (operandLimits i), p.1 < p.2) →
        ∃ j, assembleLine line = .command j ∧ j.mnemonic = i.mnemonic ∧ operandValues j = vals))

/-! ### Reset, the host, and the invariant (10_state.md, 70_reset_and_hazards.md) -/

/-- After reset every register and memory of the block is as R36 says. -/
def Obligations.ResetValues : Prop :=
  State.reset.wcur = 0 ∧ State.reset.wlen = 0 ∧ State.reset.wbuf = [] ∧ State.reset.rcur = 0 ∧
  State.reset.rlen = 0 ∧ State.reset.rsrc = [] ∧ State.reset.rbound = false ∧ State.reset.serr = none

/-- What a step does that takes no command from the port: with nothing there, nothing (assumption log 4); a placed
sequence becomes `XSRC` and changes nothing else (assumption log 2); a reset puts the block at its reset values and leaves
the host's side and the count of free values drawn (assumption log 3, 14). The model's own choices. -/
def Obligations.HostActionsBesideCommands : Prop :=
  ∀ s : State,
    (s.inputs = [] → step s = .next s) ∧
    (∀ bytes rest, s.inputs = .placeSource bytes :: rest → bytes.length < 2 ^ 61 →
      step s = .next { s with inputs := rest, xsrc := bytes }) ∧
    (∀ bytes rest, s.inputs = .placeSource bytes :: rest → 2 ^ 61 ≤ bytes.length →
      step s = .refused .sourceTooLong) ∧
    (∀ rest, s.inputs = .reset :: rest → ∃ t, step s = .next t ∧
      t.wcur = 0 ∧ t.wlen = 0 ∧ t.wbuf = [] ∧ t.rcur = 0 ∧ t.rlen = 0 ∧ t.rsrc = [] ∧ t.rbound = false ∧
      t.serr = none ∧ t.wcap = s.wcap ∧ t.xsrc = s.xsrc ∧ t.inputs = rest ∧ t.outputs = s.outputs ∧
      t.freeDraws = s.freeDraws)

/-- The invariant holds at reset, whatever capacity and external sequence a run is set up with. -/
def Obligations.InvariantHoldsAtReset : Prop :=
  State.reset.Inv ∧
  ∀ (capacity : Option Nat) (source : List Byte) (words : List CommandWord), source.length < 2 ^ 61 →
    (launch capacity source words).Inv

/-- Every step keeps the invariant: both memories hold exactly the bytes their length registers say, `WLEN` is
`ceil(WCUR / 8)`, the padding bits are 0, `WLEN ≤ WCAP`, `RLEN < 2^61`, and the reader is pristine until it is created. That
`RNEW.W` keeps the bound on `RLEN` also where `WLEN = 2^61`, by binding a free length, is the model's choice (assumption log
5). -/
def Obligations.StepKeepsInvariant : Prop :=
  ∀ s t : State, s.Inv → step s = .next t → t.Inv

/-- In every state a run reaches from reset, whatever the host does: the writer length invariant with its consequence
for the last byte (R25) and the writer padding invariant (R26). -/
def Obligations.WriterInvariantsInReachableStates : Prop :=
  ∀ (capacity : Option Nat) (source : List Byte) (inputs : List HostInput) (k : Nat) (t : State),
    source.length < 2 ^ 61 →
    Sys2Proof.core.run k { launch capacity source [] with inputs := inputs } = .next t →
    t.wlen = (t.wcur.toNat + 7) / 8 ∧
    (0 < t.wcur.toNat % 8 → t.wcur.toNat / 8 + 1 = t.wlen ∧ (t.wbuf.read (t.wcur.toNat / 8)).isSome) ∧
    (t.wcur.toNat % 8 = 0 → t.wcur.toNat / 8 = t.wlen ∧ t.wbuf.read (t.wcur.toNat / 8) = none) ∧
    (∀ p, t.wcur.toNat ≤ p → p < 8 * t.wlen → t.wbuf.bit p = some false)

/-! ### Rules about every command -/

/-- Who touches what, the writes of the table of R34: every command that completes leaves the parameters and the port
alone and answers exactly one response, and changes no part of the state its row does not mark with a `W`. The count of free
values drawn, the model's own field (assumption log 14), changes by `RNEW.X` and `RNEW.W` only. -/
def Obligations.CommandsTouchOnlyTheirState : Prop :=
  ∀ (i : Instr) (s t : State), exec i s = .next t →
    s.sameHost t ∧ (∃ o, t.outputs = s.outputs ++ [o]) ∧
    (createsReader i = false → t.freeDraws = s.freeDraws) ∧
    match i with
    | .wnew | .wrb _ | .wr8 _ _ | .wr16 _ _ | .wr32 _ _ | .wr64 _ _ => s.sameReader t
    | .wbytes | .serrq => s.sameWriter t ∧ s.sameReader t
    | .rnewX | .rnewW => s.sameWriter t
    | .rdb | .rd8 _ | .rd16 _ | .rd32 _ | .rd64 _ | .rskip _ | .sskip _ =>
      s.sameWriter t ∧ s.sameSource t ∧ t.serr = s.serr
    | .srdb | .srd8 _ | .srd16 _ | .srd32 _ | .srd64 _ => s.sameWriter t ∧ s.sameSource t

/-- What a command does and answers on one half of the block does not depend on the other half: write commands, `WNEW`
and `WBYTES` on the writer, and every reader and sticky command but `RNEW.X`, `RNEW.W` on the reader (R34). -/
def Obligations.HalvesDoNotInterfere : Prop :=
  ∀ (i : Instr) (s₁ s₂ t₁ : State), exec i s₁ = .next t₁ →
    ((i = .wnew ∨ i = .wbytes ∨ (writeForm i).isSome) → s₁.sameWriter s₂ → s₂.wcap = s₁.wcap →
      ∃ t₂, exec i s₂ = .next t₂ ∧ t₁.sameWriter t₂ ∧
        ∃ o, t₁.outputs = s₁.outputs ++ [o] ∧ t₂.outputs = s₂.outputs ++ [o]) ∧
    (((directForm i).isSome ∨ (stickyForm i).isSome ∨ i = .serrq ∨ ∃ k, i = .rskip k ∨ i = .sskip k) →
      s₁.sameReader s₂ →
      ∃ t₂, exec i s₂ = .next t₂ ∧ t₁.sameReader t₂ ∧
        ∃ o, t₁.outputs = s₁.outputs ++ [o] ∧ t₂.outputs = s₂.outputs ++ [o])

/-- No command but `WNEW` decreases `WCUR`, and none but `RNEW.X`, `RNEW.W` decreases `RCUR` (R22, R27). -/
def Obligations.CursorsNeverMoveBackward : Prop :=
  ∀ (i : Instr) (s t : State), exec i s = .next t →
    (i ≠ .wnew → s.wcur.toNat ≤ t.wcur.toNat) ∧ (createsReader i = false → s.rcur.toNat ≤ t.rcur.toNat)

/-- `RBOUND` is set by `RNEW.X` and `RNEW.W` and by no other command, and no command clears it (R29). -/
def Obligations.OnlyCreateBindsTheReader : Prop :=
  ∀ (i : Instr) (s t : State), exec i s = .next t → t.rbound = (s.rbound || createsReader i)

/-- Which command can report which error kind, in its response or in the latch (60_exceptions.md R173). -/
def Obligations.ErrorKindsByCommand : Prop :=
  ∀ (i : Instr) (s t : State) (o : Output), exec i s = .next t → t.outputs = s.outputs ++ [o] →
    (o.response.status = some .bitCountTooBig → ∃ n, i = .rd8 n ∨ i = .rd16 n ∨ i = .rd32 n ∨ i = .rd64 n) ∧
    (o.response.status = some .unexpectedEndOfData →
      i = .rdb ∨ ∃ n, i = .rd8 n ∨ i = .rd16 n ∨ i = .rd32 n ∨ i = .rd64 n) ∧
    (s.serr ≠ some .bitCountTooBig → t.serr = some .bitCountTooBig →
      ∃ n, i = .srd8 n ∨ i = .srd16 n ∨ i = .srd32 n ∨ i = .srd64 n) ∧
    (s.serr ≠ some .unexpectedEndOfData → t.serr = some .unexpectedEndOfData →
      i = .srdb ∨ ∃ n, i = .srd8 n ∨ i = .srd16 n ∨ i = .srd32 n ∨ i = .srd64 n)

/-- Every situation in which a command yields neither `ok` nor an error, and its outcome: the table of R182 for decoded
commands, in states that keep the invariant. In every other situation the command completes. That `RNEW.W` completes also
where `WLEN = 2^61`, a length `RLEN` cannot hold, with a free length, is the model's choice (assumption log 5). -/
def Obligations.CommandsStopExactlyWhereListed : Prop :=
  ∀ (i : Instr) (s : State), s.Inv →
    (∀ f, writeForm i = some f →
      (f.width < f.count → exec i s = .refused .writeCountTooBig) ∧
      (f.count ≤ f.width → 2 ^ 64 ≤ s.wcur.toNat + f.count → exec i s = .refused .writeCursorOverflow) ∧
      (f.count ≤ f.width → s.wcur.toNat + f.count < 2 ^ 64 → ∀ cap, s.wcap = some cap →
        cap < (s.wcur.toNat + f.count + 7) / 8 → exec i s = .fault .stuckAtCapacity) ∧
      (f.count ≤ f.width → s.wcur.toNat + f.count < 2 ^ 64 →
        (∀ cap, s.wcap = some cap → (s.wcur.toNat + f.count + 7) / 8 ≤ cap) → ∃ t, exec i s = .next t)) ∧
    ((i = .wnew ∨ i = .wbytes ∨ createsReader i = true) → ∃ t, exec i s = .next t) ∧
    (((directForm i).isSome ∨ (stickyForm i).isSome ∨ i = .serrq) →
      (s.rbound = false → exec i s = .refused .readerUnbound) ∧ (s.rbound = true → ∃ t, exec i s = .next t)) ∧
    (∀ k, (i = .rskip k ∨ i = .sskip k) →
      (s.rbound = false → exec i s = .refused .readerUnbound) ∧
      (s.rbound = true → 2 ^ 64 ≤ s.rcur.toNat + k → exec i s = .refused .skipCursorOverflow) ∧
      (s.rbound = true → s.rcur.toNat + k < 2 ^ 64 → ∃ t, exec i s = .next t))

/-! ### The address mapper and the shift-and-mask unit (20_memory.md, 40_mask_shift.md) -/

/-- The mapper: `idx = c[63:3] = c div 8`, `ofs = c[2:0] = c mod 8`, and `c = 8 * idx + ofs` (R51). -/
def Obligations.MapperSplitsTheCursor : Prop :=
  ∀ c : Cursor, byteIndex c = c.toNat / 8 ∧ bitOffset c = c.toNat % 8 ∧
    byteIndex c = (c.extractLsb' 3 61).toNat ∧ bitOffset c = (c.extractLsb' 0 3).toNat ∧
    c.toNat = 8 * byteIndex c + bitOffset c

/-- `Mask(n, W)` is `2^n - 1`: its low `n` bits are 1 and the rest 0, and for `n = W` it is all ones, never empty (R90,
R91). -/
def Obligations.MaskHasLowBitsSet : Prop :=
  ∀ (n W : Nat) (h : n ≤ W), (mask n W h).toNat = 2 ^ n - 1 ∧
    (∀ j, (mask n W h).getLsbD j = decide (j < n)) ∧ mask W W (Nat.le_refl W) = BitVec.allOnes W

/-- `Trunc(W, value, n)` keeps the low `n` bits of the value and nothing more (R94). -/
def Obligations.TruncKeepsLowBits : Prop :=
  ∀ (W n : Nat) (value : BitVec W) (h : n ≤ W), W ≤ 64 →
    (∀ j, (trunc value n h).getLsbD j = (decide (j < n) && value.getLsbD j)) ∧
    (trunc value n h).toNat = value.toNat % 2 ^ n ∧
    (n = W → (trunc value n h).toNat = value.toNat)

/-- The closed form of `Split` (R97). -/
def Obligations.SplitClosedForm : Prop :=
  ∀ (v : Word64) (n ofs : Nat), v.toNat < 2 ^ n → n ≤ 64 → ofs ≤ 7 →
    let k0 := if 0 < ofs then 8 - ofs else 0
    ((split v n ofs).1 = none ↔ ofs = 0) ∧
    (∀ h, (split v n ofs).1 = some h → h.toNat = v.toNat % 2 ^ k0 * 2 ^ ofs) ∧
    (split v n ofs).2.length = (n - k0 + 7) / 8 ∧ (split v n ofs).2.length ≤ 8 ∧
    (∀ j, j < (n - k0 + 7) / 8 → (split v n ofs).2[j]? = some ((v >>> (k0 + 8 * j)).setWidth 8)) ∧
    (∀ b, (split v n ofs).2.getLast? = some b → b.toNat < 2 ^ (n - k0 - 8 * ((n - k0 + 7) / 8 - 1))) ∧
    v >>> (k0 + 8 * ((n - k0 + 7) / 8)) = 0

/-- The closed form of `Gather`: bit `j` of the result is bit `ofs + j` of the bytes, and it is below `2^n` (R101). -/
def Obligations.GatherClosedForm : Prop :=
  ∀ (B : List Byte) (ofs n : Nat), ofs ≤ 7 → 1 ≤ n → n ≤ 64 → (ofs + n + 7) / 8 ≤ B.length →
    ∃ r, gather B ofs n = some r ∧
      (∀ j < n, (B[(ofs + j) / 8]?).map (fun b => b.getLsbD ((ofs + j) % 8)) = some (r.getLsbD j)) ∧
      (∀ j, n ≤ j → r.getLsbD j = false) ∧ r.toNat < 2 ^ n

/-- The round trip of the unit: gathering what was split gives the value back, whatever stood below the offset in the
partial byte (R102). -/
def Obligations.GatherAfterSplitIsIdentity : Prop :=
  ∀ (v : Word64) (n ofs : Nat) (b0 : Byte), 1 ≤ n → n ≤ 64 → v.toNat < 2 ^ n → ofs ≤ 7 →
    (∀ j, ofs ≤ j → b0.getLsbD j = false) →
    gather (match (split v n ofs).1 with
      | none => (split v n ofs).2
      | some head => (b0 ||| head) :: (split v n ofs).2) ofs n = some v

/-! ### The writer (41_writer.md) -/

/-- `WNEW` creates the writer empty, in any state (R110). -/
def Obligations.WnewEmptiesTheWriter : Prop :=
  encode .wnew = 0x10000000000000000000 ∧
  ∀ s : State, ∃ t, exec .wnew s = .next t ∧ t.wcur = 0 ∧ t.wlen = 0 ∧ t.wbuf = [] ∧
    s.sameReader t ∧ s.sameHost t ∧ s.answered t none 0

/-- A write that is not refused or stuck completes, and its post-state in closed form (R119), for `WRB`, `WR8`, `WR16`,
`WR32`, `WR64`: the cursor, the length, every bit of the buffer, how many bytes were appended (at most 8) and touched (at most 9, from the
cursor's byte index up), and both writer invariants. -/
def Obligations.WritePostState : Prop :=
  ∀ (i : Instr) (f : WriteForm) (s : State) (h : f.count ≤ f.width), writeForm i = some f → s.Inv →
    s.wcur.toNat + f.count < 2 ^ 64 → fits s.wcap (bytesFor (s.wcur.toNat + f.count)) = true →
    ∃ t, exec i s = .next t ∧
      t.wcur.toNat = s.wcur.toNat + f.count ∧
      t.wlen = (s.wcur.toNat + f.count + 7) / 8 ∧
      (∀ j < f.count, t.wbuf.bit (s.wcur.toNat + j) = some ((trunc f.value f.count h).getLsbD j)) ∧
      (∀ p < s.wcur.toNat, t.wbuf.bit p = s.wbuf.bit p) ∧
      (∀ p, s.wcur.toNat + f.count ≤ p → p < 8 * t.wlen → t.wbuf.bit p = some false) ∧
      t.wlen = s.wlen + ((s.wcur.toNat + f.count + 7) / 8 - (s.wcur.toNat + 7) / 8) ∧
      t.wlen ≤ s.wlen + 8 ∧ t.wlen ≤ byteIndex s.wcur + 9 ∧
      t.wbuf.holds t.wlen ∧ s.answered t none 0

/-- The frame of the five write commands: nothing of the reader, of the parameters or of the port changes, and every byte
of `WBUF` outside the bytes from the cursor's byte index up to the new length reads as before; a zero-width write changes
no byte (20_memory.md R41). -/
def Obligations.WriteFrame : Prop :=
  ∀ (i : Instr) (f : WriteForm) (s t : State), writeForm i = some f → s.Inv → exec i s = .next t →
    s.sameReader t ∧ s.sameHost t ∧ s.answered t none 0 ∧ t.rsrc = s.rsrc ∧
    (∀ a, (a < byteIndex s.wcur ∨ bytesFor (s.wcur.toNat + f.count) ≤ a) → t.wbuf.read a = s.wbuf.read a) ∧
    (f.count = 0 → t.wbuf = s.wbuf)

/-- Refused writes: (a) a count above the container width, (b) a cursor that would reach `2^64` (R118); a refused command
has no next state. -/
def Obligations.WritesRefused : Prop :=
  ∀ (i : Instr) (f : WriteForm) (s : State), writeForm i = some f →
    (f.width < f.count → exec i s = .refused .writeCountTooBig) ∧
    (f.count ≤ f.width → 2 ^ 64 ≤ s.wcur.toNat + f.count → exec i s = .refused .writeCursorOverflow)

/-- A write that would make `WLEN > WCAP` is stuck; with `WCAP` unbounded this never happens (R120). -/
def Obligations.WriteStuckAtCapacity : Prop :=
  ∀ (i : Instr) (f : WriteForm) (s : State), writeForm i = some f →
    (∀ cap, s.wcap = some cap → f.count ≤ f.width → s.wcur.toNat + f.count < 2 ^ 64 →
      cap < (s.wcur.toNat + f.count + 7) / 8 → exec i s = .fault .stuckAtCapacity) ∧
    (s.wcap = none → exec i s ≠ .fault .stuckAtCapacity)

/-- A zero-width write completes and changes nothing but the response it adds (R121). -/
def Obligations.ZeroWidthWriteChangesNothing : Prop :=
  ∀ s : State, s.Inv →
    (∀ v, exec (.wr8 v 0) s = .next (s.respond none 0)) ∧ (∀ v, exec (.wr16 v 0) s = .next (s.respond none 0)) ∧
    (∀ v, exec (.wr32 v 0) s = .next (s.respond none 0)) ∧ (∀ v, exec (.wr64 v 0) s = .next (s.respond none 0))

/-- `WBYTES` answers the number of bytes and the bytes `WBUF[0], ..., WBUF[WLEN-1]` in order, and changes nothing of the
state (R117). -/
def Obligations.WbytesExposesTheBytes : Prop :=
  encode .wbytes = 0x30000000000000000000 ∧
  ∀ s : State, s.Inv → ∃ bytes : List Byte,
    exec .wbytes s = .next { s with outputs := s.outputs ++ [⟨⟨none, BitVec.ofNat 64 s.wlen⟩, some bytes⟩] } ∧
    bytes.length = s.wlen ∧ ∀ a < s.wlen, bytes[a]? = s.wbuf.read a

/-- Stability of exposed bytes between two `WBYTES` with no `WNEW` between them (R122). -/
def Obligations.ExposedBytesAreStable : Prop :=
  ∀ (is : List Instr) (s s₁ s₂ t : State) (d₁ d₂ : Word64) (B₁ B₂ : List Byte), s.Inv → .wnew ∉ is →
    exec .wbytes s = .next s₁ → s₁.outputs = s.outputs ++ [⟨⟨none, d₁⟩, some B₁⟩] →
    runCommands is s₁ = .next s₂ →
    exec .wbytes s₂ = .next t → t.outputs = s₂.outputs ++ [⟨⟨none, d₂⟩, some B₂⟩] →
    B₁.length ≤ B₂.length ∧
    (∀ a, a + 1 < B₁.length → B₂[a]? = B₁[a]?) ∧
    (∀ a b, a + 1 = B₁.length → B₁[a]? = some b →
      (s.wcur.toNat % 8 = 0 → B₂[a]? = some b) ∧
      (∃ x : Byte, B₂[a]? = some (b ||| x) ∧ ∀ j < s.wcur.toNat % 8, x.getLsbD j = false))

/-- The size law: after any writes from `WNEW`, `WCUR` is the sum of the counts and `WLEN` its `ceil` in bytes
(95_test_vectors.md section 4). -/
def Obligations.SizeLaw : Prop :=
  ∀ (ws : List Instr) (fs : List WriteForm) (s t : State), s.Inv → ws.map writeForm = fs.map some →
    runCommands (.wnew :: ws) s = .next t →
    t.wcur.toNat = (fs.map (fun f => f.count)).sum ∧ t.wlen = ((fs.map (fun f => f.count)).sum + 7) / 8

/-! ### The reader (42_reader.md) -/

/-- `RNEW.X` completes in any state, binds a copy of the external sequence and starts at bit 0 with no error stored (R130);
`RLEN` is always below `2^61` (R28, R31). That a sequence of `2^61` bytes or more, which 92_eei_decisions.md leaves out, is
bound with a free length and the bytes below it is the model's choice (assumption log 2, 5). -/
def Obligations.RnewXBindsTheSource : Prop :=
  encode .rnewX = 0x40000000000000000000 ∧
  ∀ s : State, ∃ t, exec .rnewX s = .next t ∧ t.rlen < 2 ^ 61 ∧
    (s.xsrc.length < 2 ^ 61 → t.rlen = s.xsrc.length) ∧
    (∀ a, t.rsrc.read a = if a < t.rlen then s.xsrc[a]? else none) ∧ t.rsrc.holds t.rlen ∧ t.rcur = 0 ∧ t.rbound = true ∧ t.serr = none ∧
    s.sameWriter t ∧ s.sameHost t ∧ s.answered t none 0

/-- `RNEW.W` completes in any state, binds a copy of the writer's current bytes and starts at bit 0 with no error stored; the
writer is not changed (R131); `RLEN` is always below `2^61` (R28, R31). Where `WLEN = 2^61` (`WCUR` above `2^64 - 8`) `RLEN`
cannot hold it, and that the command completes there too, with a free length and the bytes below it, is the model's choice
(assumption log 5). -/
def Obligations.RnewWBindsTheWritersBytes : Prop :=
  encode .rnewW = 0x41000000000000000000 ∧
  ∀ s : State, ∃ t, exec .rnewW s = .next t ∧
    t.rlen < 2 ^ 61 ∧ (s.wlen < 2 ^ 61 → t.rlen = s.wlen) ∧
    (∀ a, t.rsrc.read a = if a < t.rlen then s.wbuf.read a else none) ∧
    (s.wbuf.holds s.wlen → t.rsrc.holds t.rlen) ∧ t.rcur = 0 ∧ t.rbound = true ∧ t.serr = none ∧
    s.sameWriter t ∧ s.sameHost t ∧ s.answered t none 0

/-- The reader's copy: no writer command after the bind changes what the reader sees (20_memory.md R63). -/
def Obligations.WritesAfterBindAreNotSeen : Prop :=
  ∀ (is : List Instr) (s t : State), (∀ i ∈ is, i = .wnew ∨ i = .wbytes ∨ (writeForm i).isSome) →
    runCommands is s = .next t → s.sameReader t

/-- Before any `RNEW.X`, `RNEW.W` since reset every other reader and sticky command is refused (R139). -/
def Obligations.UnboundReaderRefuses : Prop :=
  ∀ (i : Instr) (s : State), s.rbound = false →
    ((directForm i).isSome ∨ (stickyForm i).isSome ∨ i = .serrq ∨ ∃ k, i = .rskip k ∨ i = .sskip k) →
    exec i s = .refused .readerUnbound

/-- A direct read (`RDB`, `RD8`, `RD16`, `RD32`, `RD64`) of a bound reader completes. Exactly one case applies, tested in
this order (R142): the count above the width; zero width; bits missing; success, whose value and cursor are those of R141.
Nothing but `RCUR` changes, and that on success only. -/
def Obligations.DirectReadOutcomes : Prop :=
  ∀ (i : Instr) (W n : Nat) (s : State), directForm i = some (W, n) → s.Inv → s.rbound = true →
    ∃ t, exec i s = .next t ∧ s.sameWriter t ∧ s.sameSource t ∧ t.serr = s.serr ∧ s.sameHost t ∧
      if W < n then t.rcur = s.rcur ∧ s.answered t (some .bitCountTooBig) 0
      else if n = 0 then t.rcur = s.rcur ∧ s.answered t none 0
      else if 8 * s.rlen < s.rcur.toNat + n then t.rcur = s.rcur ∧ s.answered t (some .unexpectedEndOfData) 0
      else t.rcur.toNat = s.rcur.toNat + n ∧ ∃ r, s.answered t none r ∧
        (∀ j < n, s.rsrc.bit (s.rcur.toNat + j) = some (r.getLsbD j)) ∧ (∀ j, n ≤ j → r.getLsbD j = false) ∧
        r.toNat < 2 ^ n

/-- A failed direct read changes nothing but the response it adds; issued again it fails again the same way, and a direct
read that fits succeeds after it (R143). -/
def Obligations.FailedDirectReadLeavesNoTrace : Prop :=
  ∀ (i : Instr) (s t : State) (e : ErrorKind) (d : Word64), s.Inv → (directForm i).isSome →
    exec i s = .next t → s.answered t (some e) d →
    d = 0 ∧ t = s.respond (some e) 0 ∧ exec i t = .next (t.respond (some e) 0) ∧
    ∀ (j : Instr) (W n : Nat), directForm j = some (W, n) → n ≤ W → s.rcur.toNat + n ≤ 8 * s.rlen →
      ∃ u r, exec j t = .next u ∧ t.answered u none r ∧ u.rcur.toNat = s.rcur.toNat + n

/-- "A successful read cannot overflow `RCUR`" (R140): in a state that keeps the invariant no direct or sticky read is refused
for its cursor, and one that completes leaves `RCUR` or advances it by exactly its count, below `2^64`. The guard of R27 is
there all the same: in a state no run reaches, with `2^61` bytes or more in `RSRC`, a read that finds all its bits and would
make `RCUR` reach `2^64` is refused. -/
def Obligations.ReadsDoNotOverflowTheCursor : Prop :=
  ∀ (i : Instr) (W n : Nat) (s : State), directForm i = some (W, n) ∨ stickyForm i = some (W, n) →
    (s.Inv → exec i s ≠ .refused .readCursorOverflow ∧
      ∀ t, exec i s = .next t → t.rcur = s.rcur ∨
        (t.rcur.toNat = s.rcur.toNat + n ∧ s.rcur.toNat + n < 2 ^ 64)) ∧
    (s.rsrc.holds s.rlen → s.rbound = true → (directForm i = none → s.serr = none) → n ≤ W →
      s.rcur.toNat + n ≤ 8 * s.rlen → 2 ^ 64 ≤ s.rcur.toNat + n → exec i s = .refused .readCursorOverflow)

/-- `RSKIP` and `SSKIP` advance the cursor by the amount whatever the data and whatever the latch holds, and are refused
where the cursor would reach `2^64` (R138, R140, 43_sticky_reader.md R157). -/
def Obligations.SkipAdvancesTheCursor : Prop :=
  ∀ (i : Instr) (k : Nat) (s : State), (i = .rskip k ∨ i = .sskip k) → s.rbound = true →
    (s.rcur.toNat + k < 2 ^ 64 → ∃ t, exec i s = .next t ∧ t.rcur.toNat = s.rcur.toNat + k ∧
      s.sameWriter t ∧ s.sameSource t ∧ t.serr = s.serr ∧ s.sameHost t ∧ s.answered t none 0) ∧
    (2 ^ 64 ≤ s.rcur.toNat + k → exec i s = .refused .skipCursorOverflow)

/-! ### The sticky wrapper (43_sticky_reader.md) -/

/-- A sticky read (`SRDB`, `SRD8`, `SRD16`, `SRD32`, `SRD64`) of a bound reader completes and answers `STATUS = 0`. With an
error stored it answers 0 and changes nothing; else it delegates, and a read that raises stores the kind and answers 0
(R151). -/
def Obligations.StickyReadOutcomes : Prop :=
  ∀ (i : Instr) (W n : Nat) (s : State), stickyForm i = some (W, n) → s.Inv → s.rbound = true →
    ∃ t, exec i s = .next t ∧ s.sameWriter t ∧ s.sameSource t ∧ s.sameHost t ∧
      if s.serr ≠ none then t.rcur = s.rcur ∧ t.serr = s.serr ∧ s.answered t none 0
      else if W < n then t.rcur = s.rcur ∧ t.serr = some .bitCountTooBig ∧ s.answered t none 0
      else if n = 0 then t.rcur = s.rcur ∧ t.serr = none ∧ s.answered t none 0
      else if 8 * s.rlen < s.rcur.toNat + n then
        t.rcur = s.rcur ∧ t.serr = some .unexpectedEndOfData ∧ s.answered t none 0
      else t.rcur.toNat = s.rcur.toNat + n ∧ t.serr = none ∧ ∃ r, s.answered t none r ∧
        (∀ j < n, s.rsrc.bit (s.rcur.toNat + j) = some (r.getLsbD j)) ∧ (∀ j, n ≤ j → r.getLsbD j = false)

/-- The sticky read agrees with the direct read of the same width and count while no error is stored: same cursor, same
`DATA`, and the latch takes the direct read's `STATUS` (95_test_vectors.md section 4). -/
def Obligations.StickyAgreesWithDirectWhileOk : Prop :=
  ∀ (i j : Instr) (W n : Nat) (s t : State) (status : Option ErrorKind) (data : Word64),
    directForm i = some (W, n) → stickyForm j = some (W, n) → s.serr = none →
    exec i s = .next t → s.answered t status data →
    exec j s = .next ({ t with serr := status, outputs := s.outputs }.respond none data)

/-- The freeze: with an error stored, along any commands but `RNEW.X`, `RNEW.W` the error stays the one stored, every
sticky read answers 0 and every `SERRQ` answers the stored error's code; sticky reads and `SERRQ` alone leave `RCUR` where
it is, and `SSKIP` still moves it (R159, R158). -/
def Obligations.StickyFreeze : Prop :=
  ∀ (is : List Instr) (s t : State) (e : ErrorKind), s.serr = some e → (∀ i ∈ is, createsReader i = false) →
    runCommands is s = .next t →
    t.serr = some e ∧
    (∀ (k : Nat) (i : Instr), is[k]? = some i →
      ((stickyForm i).isSome → t.outputs[s.outputs.length + k]? = some ⟨⟨none, 0⟩, none⟩) ∧
      (i = .serrq →
        t.outputs[s.outputs.length + k]? = some ⟨⟨none, (errorCode (some e)).setWidth 64⟩, none⟩)) ∧
    ((∀ i ∈ is, (stickyForm i).isSome ∨ i = .serrq) → t.rcur = s.rcur) ∧
    (∀ k, t.rbound = true → t.rcur.toNat + k < 2 ^ 64 → ∃ u, exec (.sskip k) t = .next u ∧
      u.rcur.toNat = t.rcur.toNat + k ∧ u.serr = some e)

/-- `SERRQ` answers the code of the stored error, 0 for none, and changes nothing; it is refused before the reader is
created (R158). -/
def Obligations.SerrqReportsTheLatch : Prop :=
  encode .serrq = 0x90000000000000000000 ∧
  ∀ s : State,
    (s.rbound = false → exec .serrq s = .refused .readerUnbound) ∧
    (s.rbound = true → s.serr = none → exec .serrq s = .next (s.respond none 0)) ∧
    (s.rbound = true → s.serr = some .bitCountTooBig → exec .serrq s = .next (s.respond none 1)) ∧
    (s.rbound = true → s.serr = some .unexpectedEndOfData → exec .serrq s = .next (s.respond none 2))

/-! ### The round trip (95_test_vectors.md section 4) -/

/-- The headline of the block, direct commands: from `WNEW`, any writes, then `RNEW.W`, then direct reads of the same
counts in the same order, in any containers that hold them, all complete; each read answers the value written, masked to
its count, and in the end `RCUR = WCUR` is the sum of the counts. The bits written are at most `2^64 - 8`, so that `RLEN` can
hold their bytes (R28, R31; assumption log 5). -/
def Obligations.DirectRoundTrip : Prop :=
  ∀ (ws rs : List Instr) (fs : List WriteForm) (widths : List Nat) (s : State), s.Inv →
    ws.map writeForm = fs.map some → (∀ f ∈ fs, f.count ≤ f.width) →
    rs.map directForm = (List.zipWith (fun (f : WriteForm) W => (W, f.count)) fs widths).map some →
    widths.length = fs.length → (∀ p ∈ fs.zip widths, p.1.count ≤ p.2) →
    (fs.map (fun f => f.count)).sum ≤ 2 ^ 64 - 8 →
    fits s.wcap (bytesFor (fs.map (fun f => f.count)).sum) = true →
    ∃ t, runCommands (.wnew :: ws ++ .rnewW :: rs) s = .next t ∧
      t.outputs = s.outputs ++ List.replicate (ws.length + 2) ⟨⟨none, 0⟩, none⟩ ++
        fs.map (fun f => ⟨⟨none, BitVec.ofNat 64 (f.value.toNat % 2 ^ f.count)⟩, none⟩) ∧
      t.rcur = t.wcur ∧ t.rcur.toNat = (fs.map (fun f => f.count)).sum

/-- The headline with sticky reads in place of direct ones and a final `SERRQ`, which answers 0. The bits written
are at most `2^64 - 8`, so that `RLEN` can hold their bytes (R28, R31; assumption log 5). -/
def Obligations.StickyRoundTrip : Prop :=
  ∀ (ws rs : List Instr) (fs : List WriteForm) (widths : List Nat) (s : State), s.Inv →
    ws.map writeForm = fs.map some → (∀ f ∈ fs, f.count ≤ f.width) →
    rs.map stickyForm = (List.zipWith (fun (f : WriteForm) W => (W, f.count)) fs widths).map some →
    widths.length = fs.length → (∀ p ∈ fs.zip widths, p.1.count ≤ p.2) →
    (fs.map (fun f => f.count)).sum ≤ 2 ^ 64 - 8 →
    fits s.wcap (bytesFor (fs.map (fun f => f.count)).sum) = true →
    ∃ t, runCommands (.wnew :: ws ++ .rnewW :: rs ++ [.serrq]) s = .next t ∧
      t.outputs = s.outputs ++ List.replicate (ws.length + 2) ⟨⟨none, 0⟩, none⟩ ++
        fs.map (fun f => ⟨⟨none, BitVec.ofNat 64 (f.value.toNat % 2 ^ f.count)⟩, none⟩) ++ [⟨⟨none, 0⟩, none⟩] ∧
      t.rcur = t.wcur ∧ t.serr = none
end

