-- ==== Sys2Proof/Laws/Assembler.lean ====
section
/-! SUPPORT. What the parts of the assembler do: one operand against its limit, and the three shapes of a command's
operands (spec/30_encoding.md R77). -/

namespace Sys2Proof.Machine

/-- An operand that is a number is used below its limit and rejected at or above it. -/
theorem operandBelow_number {operand : List Char} {v : Nat} (h : numberValue operand = some v) (limit : Nat)
    (use : Nat → Assembled) :
    operandBelow limit operand use = if v < limit then use v else .error .outOfRange := by
  simp only [operandBelow, h]

theorem operandBelow_command {limit : Nat} {operand : List Char} {use : Nat → Assembled} {i : Instr}
    (h : operandBelow limit operand use = .command i) :
    ∃ v, numberValue operand = some v ∧ v < limit ∧ use v = .command i := by
  unfold operandBelow at h
  split at h
  · cases h
  · split at h
    · exact ⟨_, ‹_›, ‹_›, h⟩
    · cases h

theorem assemble_bare {i : Instr} {ops : List (List Char)} {j : Instr}
    (h : (OperandShape.bare i).assemble ops = .command j) : ops = [] ∧ j = i := by
  match ops, h with
  | [], h => exact ⟨rfl, by simpa [OperandShape.assemble] using h.symm⟩

theorem assemble_one {limit : Nat} {f : Nat → Instr} {ops : List (List Char)} {i : Instr}
    (h : (OperandShape.one limit f).assemble ops = .command i) :
    ∃ a v, ops = [a] ∧ numberValue a = some v ∧ v < limit ∧ i = f v := by
  match ops, h with
  | [a], h =>
    obtain ⟨v, h1, h2, h3⟩ := operandBelow_command h
    exact ⟨a, v, rfl, h1, h2, by simpa using h3.symm⟩

theorem assemble_valueAndCount {W : Nat} {f : BitVec W → Nat → Instr} {ops : List (List Char)} {i : Instr}
    (h : (OperandShape.valueAndCount W f).assemble ops = .command i) :
    ∃ a b v n, ops = [a, b] ∧ numberValue a = some v ∧ v < 2 ^ W ∧ numberValue b = some n ∧ n < 2 ^ 8 ∧
      i = f (BitVec.ofNat W v) n := by
  match ops, h with
  | [a, b], h =>
    obtain ⟨v, h1, h2, h3⟩ := operandBelow_command h
    obtain ⟨n, h4, h5, h6⟩ := operandBelow_command h3
    exact ⟨a, b, v, n, rfl, h1, h2, h4, h5, by simpa using h6.symm⟩

theorem assemble_one_number {a : List Char} {v : Nat} (h : numberValue a = some v) (limit : Nat) (f : Nat → Instr) :
    (OperandShape.one limit f).assemble [a] = if v < limit then .command (f v) else .error .outOfRange :=
  operandBelow_number h _ _

theorem assemble_valueAndCount_numbers {a b : List Char} {v n : Nat} (ha : numberValue a = some v)
    (hb : numberValue b = some n) (W : Nat) (f : BitVec W → Nat → Instr) :
    (OperandShape.valueAndCount W f).assemble [a, b] =
      if v < 2 ^ W then if n < 2 ^ 8 then .command (f (BitVec.ofNat W v) n) else .error .outOfRange
      else .error .outOfRange := by
  simp only [OperandShape.assemble, operandBelow_number ha, operandBelow_number hb]

/-- A mnemonic with operands that assembles is a row of the table. -/
theorem assembleCommand_command {name : List Char} {ops : List (List Char)} {i : Instr}
    (h : assembleCommand name ops = .command i) :
    ∃ row ∈ assemblyTable, name = row.mnemonic.toList ∧ row.shape.assemble ops = .command i := by
  unfold assembleCommand at h
  split at h
  · rename_i row hrow
    have hn : (row.mnemonic.toList == name) = true := List.find?_some (p := fun r : AssemblyRow => r.mnemonic.toList == name) hrow
    exact ⟨row, List.mem_of_find?_eq_some hrow, (eq_of_beq hn).symm, h⟩
  · cases h

/-- No two rows of the table have one mnemonic. -/
theorem assemblyTable_mnemonics : (assemblyTable.map (fun row => row.mnemonic)).Nodup := by decide

theorem find?_mnemonic {rows : List AssemblyRow} (h : (rows.map (fun row => row.mnemonic)).Nodup) {row : AssemblyRow}
    (hrow : row ∈ rows) : rows.find? (fun r => r.mnemonic.toList == row.mnemonic.toList) = some row := by
  induction rows with
  | nil => cases hrow
  | cons r rows ih =>
    obtain ⟨hr, hrows⟩ := List.nodup_cons.mp h
    rcases List.mem_cons.mp hrow with rfl | hm
    · exact List.find?_cons_of_pos (beq_self_eq_true _)
    · have hne : ¬ (r.mnemonic.toList == row.mnemonic.toList) = true := by
        intro he
        have hs : r.mnemonic = row.mnemonic := String.toList_inj.mp (eq_of_beq he)
        exact hr (List.mem_map.mpr ⟨row, hm, hs.symm⟩)
      rw [List.find?_cons, Bool.eq_false_iff.mpr hne]
      exact ih hrows hm

/-- A row's mnemonic selects its row. -/
theorem assembleCommand_row {row : AssemblyRow} (h : row ∈ assemblyTable) (ops : List (List Char)) :
    assembleCommand row.mnemonic.toList ops = row.shape.assemble ops := by
  simp only [assembleCommand, find?_mnemonic assemblyTable_mnemonics h]

/-- A line with a mnemonic is not blank. -/
theorem lineBody_ne_nil {line : List Char} (h : lineMnemonic line ≠ []) : lineBody line ≠ [] := by
  intro h0
  rw [lineMnemonic, h0] at h
  exact h rfl

theorem assembleLine_of_body {line : List Char} (h : lineBody line ≠ []) :
    assembleLine line = assembleCommand (lineMnemonic line) (lineOperands line) := if_neg h

theorem assembleLine_command {line : List Char} {i : Instr} (h : assembleLine line = .command i) :
    assembleCommand (lineMnemonic line) (lineOperands line) = .command i := by
  unfold assembleLine at h
  split at h
  · cases h
  · exact h

end Sys2Proof.Machine
end

