-- ==== Sys2Proof/Laws/Bits.lean ====
section
/-! SUPPORT. The laws of the shift-and-mask unit, bit by bit: what `mask`, `trunc`, `extract`, `place` and the loops of
`split` and `gather` hold at each bit position. -/

namespace Sys2Proof.Machine

@[simp] theorem getLsbD_mask (n W : Nat) (h : n ≤ W) (j : Nat) : (mask n W h).getLsbD j = decide (j < n) := by
  simp only [mask, BitVec.getLsbD_ofNat, Nat.testBit_two_pow_sub_one]
  by_cases hj : j < n
  · simp [hj, Nat.lt_of_lt_of_le hj h]
  · simp [hj]

theorem getLsbD_trunc {W n : Nat} (value : BitVec W) (h : n ≤ W) (j : Nat) :
    (trunc value n h).getLsbD j = (decide (j < 64) && (value.getLsbD j && decide (j < n))) := by
  simp only [trunc, BitVec.getLsbD_setWidth, BitVec.getLsbD_and, getLsbD_mask]

theorem getLsbD_extract (b : Byte) (ofs k : Nat) (h : k ≤ 8) (j : Nat) :
    (extract b ofs k h).getLsbD j = (b.getLsbD (ofs + j) && decide (j < k)) := by
  simp [extract]

theorem getLsbD_place (acc : Word64) (c : Byte) (sh j : Nat) :
    (place acc c sh).getLsbD j =
      (acc.getLsbD j || (decide (j < 64) && !decide (j < sh) && c.getLsbD (j - sh))) := by
  simp only [place, BitVec.getLsbD_or, BitVec.getLsbD_shiftLeft, BitVec.getLsbD_setWidth]
  by_cases hj : j < 64
  · simp [hj, show j - sh < 64 by omega]
  · simp [hj]

/-! ### `Split` -/

theorem splitTail_length (fuel : Nat) (v : Word64) (rem : Nat) (h : rem ≤ fuel) :
    (splitTail fuel v rem).length = (rem + 7) / 8 := by
  induction fuel generalizing v rem with
  | zero => simp [splitTail, show rem = 0 by omega]
  | succ fuel ih =>
    unfold splitTail
    split
    · simp [*]
    · rw [List.length_cons, ih _ _ (by omega)]; omega

theorem splitTail_getElem? (fuel : Nat) (v : Word64) (rem : Nat) (h : rem ≤ fuel) (j : Nat)
    (hj : j < (rem + 7) / 8) : (splitTail fuel v rem)[j]? = some ((v >>> (8 * j)).setWidth 8) := by
  induction fuel generalizing v rem j with
  | zero => omega
  | succ fuel ih =>
    unfold splitTail
    rw [if_neg (by omega)]
    cases j with
    | zero => simp
    | succ j =>
      rw [List.getElem?_cons_succ, ih _ _ (by omega) _ (by omega), ← BitVec.shiftRight_add]
      congr 3; omega

/-- The bits the head of `Split` takes and shifts past: none at a byte-aligned cursor. -/
abbrev headBits (ofs : Nat) : Nat := if 0 < ofs then 8 - ofs else 0

theorem split_fst_aligned (v : Word64) (n : Nat) : (split v n 0).1 = none := rfl

theorem split_fst_unaligned (v : Word64) (n : Nat) {ofs : Nat} (h : 0 < ofs) :
    ∃ head, (split v n ofs).1 = some head ∧
      ∀ j, head.getLsbD j = (decide (j < 8) && !decide (j < ofs) && v.getLsbD (j - ofs)) := by
  simp only [split, if_pos h]
  refine ⟨_, rfl, fun j => ?_⟩
  simp only [BitVec.getLsbD_setWidth, BitVec.getLsbD_shiftLeft, BitVec.getLsbD_and, getLsbD_mask]
  by_cases hj : j < 8
  · by_cases ho : j < ofs
    · simp [hj, ho]
    · simp [hj, ho, show j < 64 by omega, show j - ofs < 64 by omega, show j - ofs < 8 - ofs by omega]
  · simp [hj]

theorem split_snd_length (v : Word64) (n ofs : Nat) : (split v n ofs).2.length = (n - headBits ofs + 7) / 8 := by
  unfold split headBits
  split
  · exact splitTail_length _ _ _ (Nat.le_refl _)
  · simpa using splitTail_length n v n (Nat.le_refl _)

theorem split_snd_getElem? (v : Word64) (n ofs j : Nat) (hj : j < (n - headBits ofs + 7) / 8) :
    (split v n ofs).2[j]? = some ((v >>> (headBits ofs + 8 * j)).setWidth 8) := by
  unfold split headBits at *
  split at hj
  · rename_i h
    simp only [if_pos h]
    rw [splitTail_getElem? _ _ _ (Nat.le_refl _) _ hj, ← BitVec.shiftRight_add]
  · rename_i h
    simp only [if_neg h, Nat.zero_add] at *
    exact splitTail_getElem? _ _ _ (Nat.le_refl _) _ hj

/-! ### `Gather` -/

theorem gatherLoop_spec (B : List Byte) (acc : Word64) (sh rem : Nat) (hB : (rem + 7) / 8 ≤ B.length)
    (hw : sh + rem ≤ 64) (ha : ∀ j, sh ≤ j → acc.getLsbD j = false) :
    ∃ r, gatherLoop B acc sh rem = some r ∧
      (∀ j < sh, r.getLsbD j = acc.getLsbD j) ∧
      (∀ j < rem, (B[j / 8]?).map (fun b => b.getLsbD (j % 8)) = some (r.getLsbD (sh + j))) ∧
      (∀ j, sh + rem ≤ j → r.getLsbD j = false) := by
  induction B generalizing acc sh rem with
  | nil =>
    have h0 : rem = 0 := by simp at hB; omega
    subst h0
    exact ⟨acc, by simp [gatherLoop], fun _ _ => rfl, fun _ h => by omega, fun j hj => ha j (by omega)⟩
  | cons b B ih =>
    by_cases h0 : rem = 0
    · subst h0
      exact ⟨acc, by simp [gatherLoop], fun _ _ => rfl, fun _ h => by omega, fun j hj => ha j (by omega)⟩
    · have hk : min 8 rem = if rem < 8 then rem else 8 := by split <;> omega
      obtain ⟨r, hr, h1, h2, h3⟩ := ih (place acc (extract b 0 (min 8 rem) (Nat.min_le_left 8 rem)) sh)
        (sh + min 8 rem) (rem - min 8 rem) (by simp at hB; omega) (by omega) (by
          intro j hj
          rw [getLsbD_place, getLsbD_extract, ha j (by omega)]
          simp [show ¬ (j - sh < min 8 rem) by omega])
      refine ⟨r, by rw [gatherLoop, if_neg h0]; exact hr, fun j hj => ?_, fun j hj => ?_, fun j hj => h3 j (by omega)⟩
      · rw [h1 j (by omega), getLsbD_place]
        simp [hj]
      · by_cases hj8 : j < min 8 rem
        · rw [h1 (sh + j) (by omega), getLsbD_place, getLsbD_extract, ha (sh + j) (by omega)]
          simp [show j / 8 = 0 by omega, show j % 8 = j by omega, show sh + j < 64 by omega, hj8]
        · have hm : min 8 rem = 8 := by omega
          have := h2 (j - 8) (by omega)
          rw [show (j - 8) / 8 = j / 8 - 1 by omega, show (j - 8) % 8 = j % 8 by omega,
            show sh + min 8 rem + (j - 8) = sh + j by omega] at this
          rw [← this, show j / 8 = (j / 8 - 1) + 1 by omega]
          simp

/-- Inside its domain `Gather` has a value, whose bit `j` is bit `ofs + j` of the bytes. -/
theorem gather_spec (B : List Byte) (ofs n : Nat) (ho : ofs ≤ 7) (h1 : 1 ≤ n) (hn : n ≤ 64)
    (hB : (ofs + n + 7) / 8 ≤ B.length) :
    ∃ r, gather B ofs n = some r ∧
      (∀ j < n, (B[(ofs + j) / 8]?).map (fun b => b.getLsbD ((ofs + j) % 8)) = some (r.getLsbD j)) ∧
      (∀ j, n ≤ j → r.getLsbD j = false) := by
  unfold gather
  split
  · cases B with
    | nil => simp at hB; omega
    | cons b B =>
      obtain ⟨r, hr, ha, hb, hc⟩ := gatherLoop_spec B
        ((extract b ofs (min (8 - ofs) n) (firstChunk_le ofs n)).setWidth 64) (min (8 - ofs) n) (n - min (8 - ofs) n)
        (by simp at hB; omega) (by omega) (by
          intro j hj
          rw [BitVec.getLsbD_setWidth, getLsbD_extract]
          simp [show ¬ j < min (8 - ofs) n by omega])
      refine ⟨r, hr, fun j hj => ?_, fun j hj => hc j (by omega)⟩
      by_cases hk : j < min (8 - ofs) n
      · rw [ha j hk, BitVec.getLsbD_setWidth, getLsbD_extract]
        simp [show (ofs + j) / 8 = 0 by omega, show (ofs + j) % 8 = ofs + j by omega, show j < 64 by omega, hk]
      · have := hb (j - (8 - ofs)) (by omega)
        rw [show (j - (8 - ofs)) / 8 = (ofs + j) / 8 - 1 by omega, show (j - (8 - ofs)) % 8 = (ofs + j) % 8 by omega,
          show min (8 - ofs) n + (j - (8 - ofs)) = j by omega] at this
        rw [← this, show (ofs + j) / 8 = ((ofs + j) / 8 - 1) + 1 by omega]
        simp
  · have ho' : ofs = 0 := by omega
    subst ho'
    obtain ⟨r, hr, -, hb, hc⟩ := gatherLoop_spec B 0 0 n (by omega) (by omega) (by simp)
    exact ⟨r, hr, by simpa using hb, by simpa using hc⟩

/-- A value whose bits from `n` up are 0 is below `2^n`. -/
theorem toNat_lt_of_getLsbD {w : Nat} (r : BitVec w) (n : Nat) (h : ∀ j, n ≤ j → r.getLsbD j = false) :
    r.toNat < 2 ^ n :=
  Nat.lt_pow_two_of_testBit _ fun j hj => by simpa [BitVec.testBit_toNat] using h j hj

/-- The bits of a value below `2^n` are 0 from `n` up. -/
theorem getLsbD_of_toNat_lt {w : Nat} (r : BitVec w) {n j : Nat} (h : r.toNat < 2 ^ n) (hj : n ≤ j) :
    r.getLsbD j = false := by
  rw [← BitVec.testBit_toNat]
  exact Nat.testBit_lt_two_pow (Nat.lt_of_lt_of_le h (Nat.pow_le_pow_right (by decide) hj))

end Sys2Proof.Machine
end

