-- ==== Sys2Proof/Laws/PerInstr.lean ====
section
/-! SUPPORT. The family `FieldsKept` of statements about each command: reading the fields of its word gives the fields
the encoder put there (spec/30_encoding.md R66), so no bit of an encoding is dropped or moved. -/

namespace Sys2Proof

/-- The four fields of a word built of four fields. -/
theorem fieldsOf_wordOf (f : Fields) : fieldsOf (wordOf f) = f := by
  obtain ⟨op, sub, bc, val⟩ := f
  simp only [fieldsOf, wordOf, Fields.mk.injEq]
  refine ⟨?_, ?_, ?_, ?_⟩ <;>
  · apply BitVec.eq_of_getLsbD_eq
    intro j hj
    simp only [BitVec.getLsbD_extractLsb', BitVec.getLsbD_append]
    rw [decide_eq_true hj, Bool.true_and]
    (repeat' split) <;> first | (exfalso; omega) | (congr 1; omega)

/-- The statement of the family. -/
def Laws.FieldsKept.Statement (i : Instr) : Prop := fieldsOf (encode i) = encodeFields i

theorem Laws.FieldsKept.wnew : Laws.FieldsKept.Statement .wnew := fieldsOf_wordOf _
theorem Laws.FieldsKept.wrb (b : Bool) : Laws.FieldsKept.Statement (.wrb b) := fieldsOf_wordOf _
theorem Laws.FieldsKept.wr8 (v : BitVec 8) (n : Nat) : Laws.FieldsKept.Statement (.wr8 v n) := fieldsOf_wordOf _
theorem Laws.FieldsKept.wr16 (v : BitVec 16) (n : Nat) : Laws.FieldsKept.Statement (.wr16 v n) := fieldsOf_wordOf _
theorem Laws.FieldsKept.wr32 (v : BitVec 32) (n : Nat) : Laws.FieldsKept.Statement (.wr32 v n) := fieldsOf_wordOf _
theorem Laws.FieldsKept.wr64 (v : BitVec 64) (n : Nat) : Laws.FieldsKept.Statement (.wr64 v n) := fieldsOf_wordOf _
theorem Laws.FieldsKept.wbytes : Laws.FieldsKept.Statement .wbytes := fieldsOf_wordOf _
theorem Laws.FieldsKept.rnewX : Laws.FieldsKept.Statement .rnewX := fieldsOf_wordOf _
theorem Laws.FieldsKept.rnewW : Laws.FieldsKept.Statement .rnewW := fieldsOf_wordOf _
theorem Laws.FieldsKept.rdb : Laws.FieldsKept.Statement .rdb := fieldsOf_wordOf _
theorem Laws.FieldsKept.rd8 (n : Nat) : Laws.FieldsKept.Statement (.rd8 n) := fieldsOf_wordOf _
theorem Laws.FieldsKept.rd16 (n : Nat) : Laws.FieldsKept.Statement (.rd16 n) := fieldsOf_wordOf _
theorem Laws.FieldsKept.rd32 (n : Nat) : Laws.FieldsKept.Statement (.rd32 n) := fieldsOf_wordOf _
theorem Laws.FieldsKept.rd64 (n : Nat) : Laws.FieldsKept.Statement (.rd64 n) := fieldsOf_wordOf _
theorem Laws.FieldsKept.rskip (k : Nat) : Laws.FieldsKept.Statement (.rskip k) := fieldsOf_wordOf _
theorem Laws.FieldsKept.srdb : Laws.FieldsKept.Statement .srdb := fieldsOf_wordOf _
theorem Laws.FieldsKept.srd8 (n : Nat) : Laws.FieldsKept.Statement (.srd8 n) := fieldsOf_wordOf _
theorem Laws.FieldsKept.srd16 (n : Nat) : Laws.FieldsKept.Statement (.srd16 n) := fieldsOf_wordOf _
theorem Laws.FieldsKept.srd32 (n : Nat) : Laws.FieldsKept.Statement (.srd32 n) := fieldsOf_wordOf _
theorem Laws.FieldsKept.srd64 (n : Nat) : Laws.FieldsKept.Statement (.srd64 n) := fieldsOf_wordOf _
theorem Laws.FieldsKept.sskip (k : Nat) : Laws.FieldsKept.Statement (.sskip k) := fieldsOf_wordOf _
theorem Laws.FieldsKept.serrq : Laws.FieldsKept.Statement .serrq := fieldsOf_wordOf _

end Sys2Proof
end

