-- ==== Sys2Proof/Laws/Decode.lean ====
section
/-! SUPPORT. The laws of the command word and of the decoder's parts: what each part accepts. -/

namespace Sys2Proof

/-- A word is the word of its fields. -/
theorem wordOf_fieldsOf (w : CommandWord) : wordOf (fieldsOf w) = w := by
  apply BitVec.eq_of_getLsbD_eq
  intro j hj
  simp only [wordOf, fieldsOf, BitVec.getLsbD_append, BitVec.getLsbD_extractLsb']
  (repeat' split) <;> (rw [decide_eq_true (by omega), Bool.true_and]; congr 1; omega)

/-- The bits of a value from `W` up are 0 just when it is below `2^W`. -/
theorem ushiftRight_eq_zero_iff {w : Nat} (v : BitVec w) (W : Nat) : v >>> W = 0 ↔ v.toNat < 2 ^ W := by
  rw [← BitVec.toNat_inj]
  simp [Nat.shiftRight_eq_div_pow, Nat.div_eq_zero_iff]

/-- A mask of fields keeps field by field. -/
theorem wordOf_and (f g : Fields) :
    wordOf f &&& wordOf g = wordOf ⟨f.op &&& g.op, f.sub &&& g.sub, f.bc &&& g.bc, f.val &&& g.val⟩ := by
  apply BitVec.eq_of_getLsbD_eq
  intro j hj
  simp only [wordOf, BitVec.getLsbD_and, BitVec.getLsbD_append]
  (repeat' split) <;> rfl

theorem wordOf_inj {f g : Fields} (h : wordOf f = wordOf g) : f = g := by
  rw [← fieldsOf_wordOf f, ← fieldsOf_wordOf g, h]

/-- Matching a word under a mask, field by field: how a row of the opcode map accepts. -/
theorem masked_iff (w : CommandWord) (mask pattern : Fields) :
    w &&& wordOf mask = wordOf pattern ↔
      (fieldsOf w).op &&& mask.op = pattern.op ∧ (fieldsOf w).sub &&& mask.sub = pattern.sub ∧
        (fieldsOf w).bc &&& mask.bc = pattern.bc ∧ (fieldsOf w).val &&& mask.val = pattern.val := by
  constructor
  · intro h
    rw [← wordOf_fieldsOf w, wordOf_and] at h
    have := wordOf_inj h
    exact ⟨congrArg Fields.op this, congrArg Fields.sub this, congrArg Fields.bc this, congrArg Fields.val this⟩
  · rintro ⟨h1, h2, h3, h4⟩
    conv_lhs => rw [← wordOf_fieldsOf w]
    rw [wordOf_and, h1, h2, h3, h4]

/-- The mask that requires every bit from `W` up to be 0. -/
theorem and_highMask_eq_zero_iff (v : BitVec 64) (W : Nat) : v &&& (BitVec.allOnes 64 <<< W) = 0 ↔ v >>> W = 0 := by
  constructor <;> intro h <;> apply BitVec.eq_of_getLsbD_eq <;> intro j hj
  · rw [BitVec.getLsbD_ushiftRight]
    by_cases hw : W + j < 64
    · have := congrArg (fun x => x.getLsbD (W + j)) h
      rw [BitVec.getLsbD_and, BitVec.getLsbD_shiftLeft, BitVec.getLsbD_allOnes] at this
      simpa [hw, hj] using this
    · simp [BitVec.getLsbD_of_ge v (W + j) (by omega)]
  · by_cases hw : j < W
    · simp [hw]
    · have := congrArg (fun x => x.getLsbD (j - W)) h
      rw [BitVec.getLsbD_ushiftRight, show W + (j - W) = j by omega] at this
      simp only [BitVec.getLsbD_and, this]
      simp

theorem decodeBare_command {f : Fields} {i j : Instr} (h : decodeBare f i = .command j) :
    f.bc = 0 ∧ f.val = 0 ∧ i = j := by
  unfold decodeBare at h
  (repeat' split at h) <;> simp_all

theorem decodeAlone_command {f : Fields} {i j : Instr} (h : decodeAlone f i = .command j) :
    f.sub = 0 ∧ f.bc = 0 ∧ f.val = 0 ∧ i = j := by
  unfold decodeAlone at h
  split at h
  · cases h
  · exact ⟨by simp_all, decodeBare_command h⟩

theorem decodeValue_command {f : Fields} {W : Nat} {i j : Instr} (h : decodeValue f W i = .command j) :
    f.val.toNat < 2 ^ W ∧ i = j := by
  unfold decodeValue at h
  split at h
  · cases h
  · exact ⟨(ushiftRight_eq_zero_iff _ _).mp (by simp_all), by simpa using h⟩

theorem decodeCount_command {f : Fields} {i j : Instr} (h : decodeCount f i = .command j) : f.val = 0 ∧ i = j := by
  unfold decodeCount at h
  split at h <;> simp_all

theorem decodeSkip_command {f : Fields} {i j : Instr} (h : decodeSkip f i = .command j) :
    f.sub = 0 ∧ f.bc = 0 ∧ i = j := by
  unfold decodeSkip at h
  (repeat' split at h) <;> simp_all

end Sys2Proof
end

