-- ==== Sys2Proof/Laws/State.lean ====
section
/-! SUPPORT. What each update of the state does to each field: one lemma a field, true by `rfl`, so that no later proof
unfolds a record update. -/

namespace Sys2Proof.Machine

variable (s : State)

/-! ### `respond` -/

@[simp] theorem State.respond_wcur (status : Option ErrorKind) (data : Word64) :
    (s.respond status data).wcur = s.wcur := rfl
@[simp] theorem State.respond_wlen (status : Option ErrorKind) (data : Word64) :
    (s.respond status data).wlen = s.wlen := rfl
@[simp] theorem State.respond_wbuf (status : Option ErrorKind) (data : Word64) :
    (s.respond status data).wbuf = s.wbuf := rfl
@[simp] theorem State.respond_rcur (status : Option ErrorKind) (data : Word64) :
    (s.respond status data).rcur = s.rcur := rfl
@[simp] theorem State.respond_rlen (status : Option ErrorKind) (data : Word64) :
    (s.respond status data).rlen = s.rlen := rfl
@[simp] theorem State.respond_rsrc (status : Option ErrorKind) (data : Word64) :
    (s.respond status data).rsrc = s.rsrc := rfl
@[simp] theorem State.respond_rbound (status : Option ErrorKind) (data : Word64) :
    (s.respond status data).rbound = s.rbound := rfl
@[simp] theorem State.respond_serr (status : Option ErrorKind) (data : Word64) :
    (s.respond status data).serr = s.serr := rfl
@[simp] theorem State.respond_wcap (status : Option ErrorKind) (data : Word64) :
    (s.respond status data).wcap = s.wcap := rfl
@[simp] theorem State.respond_xsrc (status : Option ErrorKind) (data : Word64) :
    (s.respond status data).xsrc = s.xsrc := rfl
@[simp] theorem State.respond_inputs (status : Option ErrorKind) (data : Word64) :
    (s.respond status data).inputs = s.inputs := rfl
@[simp] theorem State.respond_outputs (status : Option ErrorKind) (data : Word64) :
    (s.respond status data).outputs = s.outputs ++ [⟨⟨status, data⟩, none⟩] := rfl
@[simp] theorem State.respond_freeDraws (status : Option ErrorKind) (data : Word64) :
    (s.respond status data).freeDraws = s.freeDraws := rfl

/-! ### `respondBytes` -/

@[simp] theorem State.respondBytes_wcur (data : Word64) (bytes : List Byte) :
    (s.respondBytes data bytes).wcur = s.wcur := rfl
@[simp] theorem State.respondBytes_wlen (data : Word64) (bytes : List Byte) :
    (s.respondBytes data bytes).wlen = s.wlen := rfl
@[simp] theorem State.respondBytes_wbuf (data : Word64) (bytes : List Byte) :
    (s.respondBytes data bytes).wbuf = s.wbuf := rfl
@[simp] theorem State.respondBytes_rcur (data : Word64) (bytes : List Byte) :
    (s.respondBytes data bytes).rcur = s.rcur := rfl
@[simp] theorem State.respondBytes_rlen (data : Word64) (bytes : List Byte) :
    (s.respondBytes data bytes).rlen = s.rlen := rfl
@[simp] theorem State.respondBytes_rsrc (data : Word64) (bytes : List Byte) :
    (s.respondBytes data bytes).rsrc = s.rsrc := rfl
@[simp] theorem State.respondBytes_rbound (data : Word64) (bytes : List Byte) :
    (s.respondBytes data bytes).rbound = s.rbound := rfl
@[simp] theorem State.respondBytes_serr (data : Word64) (bytes : List Byte) :
    (s.respondBytes data bytes).serr = s.serr := rfl
@[simp] theorem State.respondBytes_wcap (data : Word64) (bytes : List Byte) :
    (s.respondBytes data bytes).wcap = s.wcap := rfl
@[simp] theorem State.respondBytes_xsrc (data : Word64) (bytes : List Byte) :
    (s.respondBytes data bytes).xsrc = s.xsrc := rfl
@[simp] theorem State.respondBytes_inputs (data : Word64) (bytes : List Byte) :
    (s.respondBytes data bytes).inputs = s.inputs := rfl
@[simp] theorem State.respondBytes_outputs (data : Word64) (bytes : List Byte) :
    (s.respondBytes data bytes).outputs = s.outputs ++ [⟨⟨none, data⟩, some bytes⟩] := rfl
@[simp] theorem State.respondBytes_freeDraws (data : Word64) (bytes : List Byte) :
    (s.respondBytes data bytes).freeDraws = s.freeDraws := rfl

/-! ### `advanceWriter` -/

@[simp] theorem State.advanceWriter_wcur (n : Nat) :
    (s.advanceWriter n).wcur = BitVec.ofNat 64 (s.wcur.toNat + n) := rfl
@[simp] theorem State.advanceWriter_wlen (n : Nat) :
    (s.advanceWriter n).wlen = s.wlen := rfl
@[simp] theorem State.advanceWriter_wbuf (n : Nat) :
    (s.advanceWriter n).wbuf = s.wbuf := rfl
@[simp] theorem State.advanceWriter_rcur (n : Nat) :
    (s.advanceWriter n).rcur = s.rcur := rfl
@[simp] theorem State.advanceWriter_rlen (n : Nat) :
    (s.advanceWriter n).rlen = s.rlen := rfl
@[simp] theorem State.advanceWriter_rsrc (n : Nat) :
    (s.advanceWriter n).rsrc = s.rsrc := rfl
@[simp] theorem State.advanceWriter_rbound (n : Nat) :
    (s.advanceWriter n).rbound = s.rbound := rfl
@[simp] theorem State.advanceWriter_serr (n : Nat) :
    (s.advanceWriter n).serr = s.serr := rfl
@[simp] theorem State.advanceWriter_wcap (n : Nat) :
    (s.advanceWriter n).wcap = s.wcap := rfl
@[simp] theorem State.advanceWriter_xsrc (n : Nat) :
    (s.advanceWriter n).xsrc = s.xsrc := rfl
@[simp] theorem State.advanceWriter_inputs (n : Nat) :
    (s.advanceWriter n).inputs = s.inputs := rfl
@[simp] theorem State.advanceWriter_outputs (n : Nat) :
    (s.advanceWriter n).outputs = s.outputs := rfl
@[simp] theorem State.advanceWriter_freeDraws (n : Nat) :
    (s.advanceWriter n).freeDraws = s.freeDraws := rfl

/-! ### `advanceReader` -/

@[simp] theorem State.advanceReader_wcur (n : Nat) :
    (s.advanceReader n).wcur = s.wcur := rfl
@[simp] theorem State.advanceReader_wlen (n : Nat) :
    (s.advanceReader n).wlen = s.wlen := rfl
@[simp] theorem State.advanceReader_wbuf (n : Nat) :
    (s.advanceReader n).wbuf = s.wbuf := rfl
@[simp] theorem State.advanceReader_rcur (n : Nat) :
    (s.advanceReader n).rcur = BitVec.ofNat 64 (s.rcur.toNat + n) := rfl
@[simp] theorem State.advanceReader_rlen (n : Nat) :
    (s.advanceReader n).rlen = s.rlen := rfl
@[simp] theorem State.advanceReader_rsrc (n : Nat) :
    (s.advanceReader n).rsrc = s.rsrc := rfl
@[simp] theorem State.advanceReader_rbound (n : Nat) :
    (s.advanceReader n).rbound = s.rbound := rfl
@[simp] theorem State.advanceReader_serr (n : Nat) :
    (s.advanceReader n).serr = s.serr := rfl
@[simp] theorem State.advanceReader_wcap (n : Nat) :
    (s.advanceReader n).wcap = s.wcap := rfl
@[simp] theorem State.advanceReader_xsrc (n : Nat) :
    (s.advanceReader n).xsrc = s.xsrc := rfl
@[simp] theorem State.advanceReader_inputs (n : Nat) :
    (s.advanceReader n).inputs = s.inputs := rfl
@[simp] theorem State.advanceReader_outputs (n : Nat) :
    (s.advanceReader n).outputs = s.outputs := rfl
@[simp] theorem State.advanceReader_freeDraws (n : Nat) :
    (s.advanceReader n).freeDraws = s.freeDraws := rfl

/-! ### `raiseDirect` -/

@[simp] theorem State.raiseDirect_wcur (e : ErrorKind) :
    (s.raiseDirect e).wcur = s.wcur := rfl
@[simp] theorem State.raiseDirect_wlen (e : ErrorKind) :
    (s.raiseDirect e).wlen = s.wlen := rfl
@[simp] theorem State.raiseDirect_wbuf (e : ErrorKind) :
    (s.raiseDirect e).wbuf = s.wbuf := rfl
@[simp] theorem State.raiseDirect_rcur (e : ErrorKind) :
    (s.raiseDirect e).rcur = s.rcur := rfl
@[simp] theorem State.raiseDirect_rlen (e : ErrorKind) :
    (s.raiseDirect e).rlen = s.rlen := rfl
@[simp] theorem State.raiseDirect_rsrc (e : ErrorKind) :
    (s.raiseDirect e).rsrc = s.rsrc := rfl
@[simp] theorem State.raiseDirect_rbound (e : ErrorKind) :
    (s.raiseDirect e).rbound = s.rbound := rfl
@[simp] theorem State.raiseDirect_serr (e : ErrorKind) :
    (s.raiseDirect e).serr = s.serr := rfl
@[simp] theorem State.raiseDirect_wcap (e : ErrorKind) :
    (s.raiseDirect e).wcap = s.wcap := rfl
@[simp] theorem State.raiseDirect_xsrc (e : ErrorKind) :
    (s.raiseDirect e).xsrc = s.xsrc := rfl
@[simp] theorem State.raiseDirect_inputs (e : ErrorKind) :
    (s.raiseDirect e).inputs = s.inputs := rfl
@[simp] theorem State.raiseDirect_outputs (e : ErrorKind) :
    (s.raiseDirect e).outputs = s.outputs ++ [⟨⟨some e, 0⟩, none⟩] := rfl
@[simp] theorem State.raiseDirect_freeDraws (e : ErrorKind) :
    (s.raiseDirect e).freeDraws = s.freeDraws := rfl

/-! ### `raiseSticky` -/

@[simp] theorem State.raiseSticky_wcur (e : ErrorKind) :
    (s.raiseSticky e).wcur = s.wcur := rfl
@[simp] theorem State.raiseSticky_wlen (e : ErrorKind) :
    (s.raiseSticky e).wlen = s.wlen := rfl
@[simp] theorem State.raiseSticky_wbuf (e : ErrorKind) :
    (s.raiseSticky e).wbuf = s.wbuf := rfl
@[simp] theorem State.raiseSticky_rcur (e : ErrorKind) :
    (s.raiseSticky e).rcur = s.rcur := rfl
@[simp] theorem State.raiseSticky_rlen (e : ErrorKind) :
    (s.raiseSticky e).rlen = s.rlen := rfl
@[simp] theorem State.raiseSticky_rsrc (e : ErrorKind) :
    (s.raiseSticky e).rsrc = s.rsrc := rfl
@[simp] theorem State.raiseSticky_rbound (e : ErrorKind) :
    (s.raiseSticky e).rbound = s.rbound := rfl
@[simp] theorem State.raiseSticky_serr (e : ErrorKind) :
    (s.raiseSticky e).serr = latch s.serr e := rfl
@[simp] theorem State.raiseSticky_wcap (e : ErrorKind) :
    (s.raiseSticky e).wcap = s.wcap := rfl
@[simp] theorem State.raiseSticky_xsrc (e : ErrorKind) :
    (s.raiseSticky e).xsrc = s.xsrc := rfl
@[simp] theorem State.raiseSticky_inputs (e : ErrorKind) :
    (s.raiseSticky e).inputs = s.inputs := rfl
@[simp] theorem State.raiseSticky_outputs (e : ErrorKind) :
    (s.raiseSticky e).outputs = s.outputs ++ [⟨⟨none, 0⟩, none⟩] := rfl
@[simp] theorem State.raiseSticky_freeDraws (e : ErrorKind) :
    (s.raiseSticky e).freeDraws = s.freeDraws := rfl

/-! ### `appendByte` -/

@[simp] theorem State.appendByte_wcur (b : Byte) :
    (s.appendByte b).wcur = s.wcur := rfl
@[simp] theorem State.appendByte_wlen (b : Byte) :
    (s.appendByte b).wlen = s.wlen + 1 := rfl
@[simp] theorem State.appendByte_wbuf (b : Byte) :
    (s.appendByte b).wbuf = s.wbuf.write s.wlen b := rfl
@[simp] theorem State.appendByte_rcur (b : Byte) :
    (s.appendByte b).rcur = s.rcur := rfl
@[simp] theorem State.appendByte_rlen (b : Byte) :
    (s.appendByte b).rlen = s.rlen := rfl
@[simp] theorem State.appendByte_rsrc (b : Byte) :
    (s.appendByte b).rsrc = s.rsrc := rfl
@[simp] theorem State.appendByte_rbound (b : Byte) :
    (s.appendByte b).rbound = s.rbound := rfl
@[simp] theorem State.appendByte_serr (b : Byte) :
    (s.appendByte b).serr = s.serr := rfl
@[simp] theorem State.appendByte_wcap (b : Byte) :
    (s.appendByte b).wcap = s.wcap := rfl
@[simp] theorem State.appendByte_xsrc (b : Byte) :
    (s.appendByte b).xsrc = s.xsrc := rfl
@[simp] theorem State.appendByte_inputs (b : Byte) :
    (s.appendByte b).inputs = s.inputs := rfl
@[simp] theorem State.appendByte_outputs (b : Byte) :
    (s.appendByte b).outputs = s.outputs := rfl
@[simp] theorem State.appendByte_freeDraws (b : Byte) :
    (s.appendByte b).freeDraws = s.freeDraws := rfl

/-! ### `bindReader` -/

@[simp] theorem State.bindReader_wcur (source : Memory) (len : Nat) :
    (s.bindReader source len).wcur = s.wcur := rfl
@[simp] theorem State.bindReader_wlen (source : Memory) (len : Nat) :
    (s.bindReader source len).wlen = s.wlen := rfl
@[simp] theorem State.bindReader_wbuf (source : Memory) (len : Nat) :
    (s.bindReader source len).wbuf = s.wbuf := rfl
@[simp] theorem State.bindReader_rcur (source : Memory) (len : Nat) :
    (s.bindReader source len).rcur = 0 := rfl
@[simp] theorem State.bindReader_rlen (source : Memory) (len : Nat) :
    (s.bindReader source len).rlen = s.boundLength len := rfl
@[simp] theorem State.bindReader_rsrc (source : Memory) (len : Nat) :
    (s.bindReader source len).rsrc = source.below (s.boundLength len) := rfl
@[simp] theorem State.bindReader_rbound (source : Memory) (len : Nat) :
    (s.bindReader source len).rbound = true := rfl
@[simp] theorem State.bindReader_serr (source : Memory) (len : Nat) :
    (s.bindReader source len).serr = none := rfl
@[simp] theorem State.bindReader_wcap (source : Memory) (len : Nat) :
    (s.bindReader source len).wcap = s.wcap := rfl
@[simp] theorem State.bindReader_xsrc (source : Memory) (len : Nat) :
    (s.bindReader source len).xsrc = s.xsrc := rfl
@[simp] theorem State.bindReader_inputs (source : Memory) (len : Nat) :
    (s.bindReader source len).inputs = s.inputs := rfl
@[simp] theorem State.bindReader_outputs (source : Memory) (len : Nat) :
    (s.bindReader source len).outputs = s.outputs := rfl
@[simp] theorem State.bindReader_freeDraws (source : Memory) (len : Nat) :
    (s.bindReader source len).freeDraws = s.drawsAfter len := rfl

/-! ### The reset of the block -/

@[simp] theorem resetBlock_wcap : (resetBlock s).wcap = s.wcap := rfl
@[simp] theorem resetBlock_xsrc : (resetBlock s).xsrc = s.xsrc := rfl
@[simp] theorem resetBlock_inputs : (resetBlock s).inputs = s.inputs := rfl
@[simp] theorem resetBlock_outputs : (resetBlock s).outputs = s.outputs := rfl
@[simp] theorem resetBlock_freeDraws : (resetBlock s).freeDraws = s.freeDraws := rfl

/-! ### The length a new reader is bound with -/

/-- A length the register holds is the length bound, and no free value is drawn. -/
theorem State.boundLength_of_lt {s : State} {len : Nat} (h : len < Config.sourceLimit) : s.boundLength len = len :=
  if_pos h

theorem State.drawsAfter_of_lt {s : State} {len : Nat} (h : len < Config.sourceLimit) :
    s.drawsAfter len = s.freeDraws := if_pos h

/-- The length bound fits the register, whatever the free value is (10_state.md R28, R31). -/
theorem State.boundLength_lt (s : State) (len : Nat) : s.boundLength len < Config.sourceLimit := by
  unfold State.boundLength
  split
  · assumption
  · exact (Config.freeLength s.freeDraws).isLt

/-- No more bytes are bound than are there. -/
theorem State.boundLength_le (s : State) (len : Nat) : s.boundLength len ≤ len := by
  by_cases h : len < Config.sourceLimit
  · exact Nat.le_of_eq (State.boundLength_of_lt h)
  · exact Nat.le_of_lt (Nat.lt_of_lt_of_le (s.boundLength_lt len) (Nat.not_lt.mp h))

/-! ### The latch -/

@[simp] theorem latch_none (e : ErrorKind) : latch none e = some e := rfl
@[simp] theorem latch_some (first e : ErrorKind) : latch (some first) e = some first := rfl

/-! ### Cursors -/

/-- An advanced cursor is the exact sum where the guard holds: it never wraps. -/
theorem State.advanceWriter_toNat {s : State} {n : Nat} (h : s.writerCanAdvance n) :
    (s.advanceWriter n).wcur.toNat = s.wcur.toNat + n :=
  (BitVec.toNat_ofNat ..).trans (Nat.mod_eq_of_lt h)

theorem State.advanceReader_toNat {s : State} {n : Nat} (h : s.readerCanAdvance n) :
    (s.advanceReader n).rcur.toNat = s.rcur.toNat + n :=
  (BitVec.toNat_ofNat ..).trans (Nat.mod_eq_of_lt h)

@[simp] theorem State.advanceReader_zero : s.advanceReader 0 = s := by
  simp [State.advanceReader]

@[simp] theorem State.advanceWriter_zero : s.advanceWriter 0 = s := by
  simp [State.advanceWriter]

/-! ### Appending bytes -/

variable (bs : List Byte)

@[simp] theorem State.appendBytes_nil : s.appendBytes [] = s := rfl
@[simp] theorem State.appendBytes_cons (b : Byte) : s.appendBytes (b :: bs) = (s.appendByte b).appendBytes bs := rfl
@[simp] theorem State.appendBytes_wcur : (s.appendBytes bs).wcur = s.wcur := by
  induction bs generalizing s with
  | nil => rfl
  | cons b bs ih => simp [ih]
@[simp] theorem State.appendBytes_rcur : (s.appendBytes bs).rcur = s.rcur := by
  induction bs generalizing s with
  | nil => rfl
  | cons b bs ih => simp [ih]
@[simp] theorem State.appendBytes_rlen : (s.appendBytes bs).rlen = s.rlen := by
  induction bs generalizing s with
  | nil => rfl
  | cons b bs ih => simp [ih]
@[simp] theorem State.appendBytes_rsrc : (s.appendBytes bs).rsrc = s.rsrc := by
  induction bs generalizing s with
  | nil => rfl
  | cons b bs ih => simp [ih]
@[simp] theorem State.appendBytes_rbound : (s.appendBytes bs).rbound = s.rbound := by
  induction bs generalizing s with
  | nil => rfl
  | cons b bs ih => simp [ih]
@[simp] theorem State.appendBytes_serr : (s.appendBytes bs).serr = s.serr := by
  induction bs generalizing s with
  | nil => rfl
  | cons b bs ih => simp [ih]
@[simp] theorem State.appendBytes_wcap : (s.appendBytes bs).wcap = s.wcap := by
  induction bs generalizing s with
  | nil => rfl
  | cons b bs ih => simp [ih]
@[simp] theorem State.appendBytes_xsrc : (s.appendBytes bs).xsrc = s.xsrc := by
  induction bs generalizing s with
  | nil => rfl
  | cons b bs ih => simp [ih]
@[simp] theorem State.appendBytes_inputs : (s.appendBytes bs).inputs = s.inputs := by
  induction bs generalizing s with
  | nil => rfl
  | cons b bs ih => simp [ih]
@[simp] theorem State.appendBytes_outputs : (s.appendBytes bs).outputs = s.outputs := by
  induction bs generalizing s with
  | nil => rfl
  | cons b bs ih => simp [ih]
@[simp] theorem State.appendBytes_freeDraws : (s.appendBytes bs).freeDraws = s.freeDraws := by
  induction bs generalizing s with
  | nil => rfl
  | cons b bs ih => simp [ih]
@[simp] theorem State.appendBytes_wlen : (s.appendBytes bs).wlen = s.wlen + bs.length := by
  induction bs generalizing s with
  | nil => rfl
  | cons b bs ih => simp [ih]; omega

end Sys2Proof.Machine
end

