-- ==== Sys2Proof/Laws/Memory.lean ====
section
/-! SUPPORT. The laws of the byte memories: read after write, the canonical form, and the memories that hold exactly the
bytes below a length. -/

namespace Sys2Proof.Machine

/-! ### Reading after writing -/

@[simp] theorem Memory.read_nil (a : Nat) : Memory.read [] a = none := rfl

theorem Memory.read_cons (k : Nat) (b : Byte) (m : Memory) (a : Nat) :
    Memory.read ((k, b) :: m) a = if k = a then some b else m.read a := rfl

/-- A write is read back at its index, and every other index reads as before. -/
theorem Memory.read_write (m : Memory) (a : Nat) (b : Byte) (k : Nat) :
    (m.write a b).read k = if k = a then some b else m.read k := by
  induction m with
  | nil => simp [Memory.write, Memory.read_cons, eq_comm]
  | cons x m ih =>
    obtain ⟨k', c⟩ := x
    unfold Memory.write
    split
    · by_cases h : k = a
      · simp [Memory.read_cons, h]
      · simp [Memory.read_cons, h, Ne.symm h]
    · split
      · rename_i heq
        by_cases h : k = a
        · simp [Memory.read_cons, h]
        · simp [Memory.read_cons, ← heq, h, Ne.symm h]
      · rename_i hne
        rw [Memory.read_cons, Memory.read_cons, ih]
        by_cases h : k = a
        · simp [h, Ne.symm hne]
        · simp [h]

theorem Memory.read_write_same (m : Memory) (a : Nat) (b : Byte) : (m.write a b).read a = some b := by
  simp [Memory.read_write]

theorem Memory.read_write_other (m : Memory) {a k : Nat} (b : Byte) (h : k ≠ a) :
    (m.write a b).read k = m.read k := by
  simp [Memory.read_write, h]

/-! ### The canonical form -/

/-- The indices after a write are the old ones and the one written. -/
theorem Memory.mem_write {m : Memory} {a : Nat} {b : Byte} {x : Host.Cell} (h : x ∈ m.write a b) :
    x.1 = a ∨ x ∈ m := by
  induction m with
  | nil => simp_all [Memory.write]
  | cons y m ih =>
    obtain ⟨k, c⟩ := y
    unfold Memory.write at h
    split at h
    · simp only [List.mem_cons] at h ⊢
      rcases h with rfl | h | h <;> simp_all
    · split at h
      · simp only [List.mem_cons] at h ⊢
        rcases h with rfl | h <;> simp_all
      · simp only [List.mem_cons] at h ⊢
        rcases h with rfl | h
        · simp
        · rcases ih h with h | h <;> simp_all

/-- A write keeps the canonical form. -/
theorem Memory.wf_write {m : Memory} (a : Nat) (b : Byte) (h : m.wf) : (m.write a b).wf := by
  induction m with
  | nil => simp [Memory.write]
  | cons x m ih =>
    obtain ⟨k, c⟩ := x
    obtain ⟨hk, hm⟩ := List.pairwise_cons.mp h
    unfold Memory.write
    split
    · rename_i hlt
      refine List.pairwise_cons.mpr ⟨?_, h⟩
      intro y hy
      rcases List.mem_cons.mp hy with rfl | hy
      · exact hlt
      · exact Nat.lt_trans hlt (hk y hy)
    · split
      · rename_i heq
        exact List.pairwise_cons.mpr ⟨fun y hy => heq ▸ hk y hy, hm⟩
      · refine List.pairwise_cons.mpr ⟨?_, ih hm⟩
        intro y hy
        rcases Memory.mem_write hy with hy | hy
        · simp only [hy]; omega
        · exact hk y hy

/-- A copy of the bytes below a length keeps the canonical form. -/
theorem Memory.wf_below {m : Memory} (len : Nat) (h : m.wf) : (m.below len).wf := List.Pairwise.filter _ h

theorem Memory.fst_ofBytes (start : Nat) (bytes : List Byte) :
    (Memory.ofBytes start bytes).map Prod.fst = List.range' start bytes.length := by
  induction bytes generalizing start with
  | nil => rfl
  | cons b bs ih => simp [Memory.ofBytes, ih, List.range'_succ]

/-- The memory of a byte list holds exactly its bytes. -/
theorem Memory.holds_ofBytes (bytes : List Byte) : (Memory.ofBytes 0 bytes).holds bytes.length := by
  rw [Memory.holds, Memory.fst_ofBytes, List.range_eq_range']

/-- A memory that holds exactly the bytes below a length is in canonical form. -/
theorem Memory.holds.wf {m : Memory} {len : Nat} (h : m.holds len) : m.wf := by
  have : (m.map Prod.fst).Pairwise (· < ·) := h ▸ List.pairwise_lt_range
  exact List.pairwise_map.mp this

/-- The memory of a byte list is in canonical form. -/
theorem Memory.wf_ofBytes (bytes : List Byte) : (Memory.ofBytes 0 bytes).wf := (Memory.holds_ofBytes bytes).wf

/-! ### Memories that hold exactly the bytes below a length -/

theorem Memory.holds.length_eq {m : Memory} {len : Nat} (h : m.holds len) : m.length = len := by
  simpa using congrArg List.length h

theorem Memory.read_ofBytes (start : Nat) (bytes : List Byte) (a : Nat) :
    (Memory.ofBytes start bytes).read a = if a < start then none else bytes[a - start]? := by
  induction bytes generalizing start with
  | nil => simp [Memory.ofBytes]
  | cons b bs ih =>
    simp only [Memory.ofBytes, Memory.read_cons, ih]
    rcases Nat.lt_trichotomy a start with h | h | h
    · simp [h, show ¬ start = a by omega, show a < start + 1 by omega]
    · simp [h]
    · obtain ⟨d, rfl⟩ : ∃ d, a = start + 1 + d := ⟨a - (start + 1), by omega⟩
      rw [if_neg (by omega), if_neg (by omega), if_neg (by omega), show start + 1 + d - (start + 1) = d by omega,
        show start + 1 + d - start = d + 1 by omega]
      simp

theorem Memory.ofBytes_bytes_aux (m : Memory) (start : Nat) (h : m.map Prod.fst = List.range' start m.length) :
    Memory.ofBytes start m.bytes = m := by
  induction m generalizing start with
  | nil => rfl
  | cons x m ih =>
    obtain ⟨k, b⟩ := x
    simp only [List.map_cons, List.length_cons, List.range'_succ, List.cons.injEq] at h
    obtain ⟨rfl, h⟩ := h
    have := ih (k + 1) h
    simp only [Memory.bytes] at this
    simp [Memory.bytes, Memory.ofBytes, this]

/-- Such a memory is the memory of its own bytes: equal contents are equal data. -/
theorem Memory.holds.eq_ofBytes {m : Memory} {len : Nat} (h : m.holds len) : m = Memory.ofBytes 0 m.bytes := by
  refine (Memory.ofBytes_bytes_aux m 0 ?_).symm
  rw [h.length_eq, ← List.range_eq_range']
  exact h

theorem Memory.bytes_length (m : Memory) : m.bytes.length = m.length := by simp [Memory.bytes]

theorem Memory.holds.read_eq {m : Memory} {len : Nat} (h : m.holds len) (a : Nat) : m.read a = m.bytes[a]? := by
  conv_lhs => rw [h.eq_ofBytes]
  simp [Memory.read_ofBytes]

/-- The bytes below the length are there, and no others. -/
theorem Memory.holds.isSome_read {m : Memory} {len : Nat} (h : m.holds len) (a : Nat) :
    (m.read a).isSome = decide (a < len) := by
  rw [h.read_eq]
  by_cases ha : a < len <;> simp [Memory.bytes_length, h.length_eq, ha]

theorem Memory.holds.read_none {m : Memory} {len : Nat} (h : m.holds len) {a : Nat} (ha : len ≤ a) :
    m.read a = none := by
  have := h.isSome_read a
  rw [decide_eq_false (by omega)] at this
  simpa using this

theorem Memory.holds.read_some {m : Memory} {len : Nat} (h : m.holds len) {a : Nat} (ha : a < len) :
    ∃ b, m.read a = some b := by
  rw [← Option.isSome_iff_exists, h.isSome_read a, decide_eq_true ha]

theorem Memory.write_ofBytes_append (start : Nat) (bs : List Byte) (b : Byte) :
    (Memory.ofBytes start bs).write (start + bs.length) b = Memory.ofBytes start (bs ++ [b]) := by
  induction bs generalizing start with
  | nil => simp [Memory.ofBytes, Memory.write]
  | cons c bs ih =>
    have := ih (start + 1)
    rw [show start + 1 + bs.length = start + (bs.length + 1) by omega] at this
    simp [Memory.ofBytes, Memory.write, this]

/-- Appending a byte at the length: exactly one more byte is held. -/
theorem Memory.holds.write_append {m : Memory} {len : Nat} (h : m.holds len) (b : Byte) :
    (m.write len b).holds (len + 1) := by
  rw [h.eq_ofBytes]
  have hl : m.bytes.length = len := by rw [Memory.bytes_length, h.length_eq]
  have := Memory.write_ofBytes_append 0 m.bytes b
  rw [Nat.zero_add, hl] at this
  rw [this]
  have := Memory.holds_ofBytes (m.bytes ++ [b])
  rwa [List.length_append, hl] at this

theorem Memory.fst_write_of_mem {m : Memory} {a : Nat} (b : Byte) (hw : m.wf) (h : (m.read a).isSome) :
    (m.write a b).map Prod.fst = m.map Prod.fst := by
  induction m with
  | nil => simp at h
  | cons x m ih =>
    obtain ⟨k, c⟩ := x
    obtain ⟨hk, hm⟩ := List.pairwise_cons.mp hw
    unfold Memory.write
    split
    · rename_i hlt
      exfalso
      have hnone : ∀ (m : Memory), (∀ y ∈ m, a < y.1) → m.read a = none := by
        intro m
        induction m with
        | nil => intro; rfl
        | cons y m ihm =>
          obtain ⟨k', c'⟩ := y
          intro hall
          have h1 : a < k' := hall (k', c') (by simp)
          rw [Memory.read_cons, if_neg (by omega)]
          exact ihm (fun z hz => hall z (by simp [hz]))
      rw [hnone] at h
      · simp at h
      · intro y hy
        rcases List.mem_cons.mp hy with rfl | hy
        · exact hlt
        · exact Nat.lt_trans hlt (hk y hy)
    · split
      · rename_i heq; simp [heq]
      · rename_i hne
        rw [Memory.read_cons, if_neg (fun hh => hne hh.symm)] at h
        simp [ih hm h]

/-- Changing a byte that is there leaves the same bytes held. -/
theorem Memory.holds.write_present {m : Memory} {len a : Nat} (h : m.holds len) (ha : a < len) (b : Byte) :
    (m.write a b).holds len := by
  rw [Memory.holds, Memory.fst_write_of_mem b h.wf (by rw [h.isSome_read a, decide_eq_true ha])]
  exact h

/-- Two memories that hold the same indices and read alike are equal. -/
theorem Memory.holds.ext {m m' : Memory} {len : Nat} (h : m.holds len) (h' : m'.holds len)
    (hr : ∀ a, m.read a = m'.read a) : m = m' := by
  rw [h.eq_ofBytes, h'.eq_ofBytes]
  congr 1
  apply List.ext_getElem?
  intro a
  rw [← h.read_eq, ← h'.read_eq, hr]

/-! ### Copies -/

theorem Memory.read_below (m : Memory) (len a : Nat) :
    (m.below len).read a = if a < len then m.read a else none := by
  induction m with
  | nil => simp [Memory.below]
  | cons x m ih =>
    obtain ⟨k, b⟩ := x
    simp only [Memory.below] at ih
    simp only [Memory.below, List.filter_cons]
    split
    · rename_i hk
      simp only [decide_eq_true_eq] at hk
      simp only [Memory.read_cons, ih]
      split
      · rename_i heq; simp [← heq, hk]
      · rfl
    · rename_i hk
      simp only [decide_eq_true_eq] at hk
      rw [ih]
      split
      · rw [Memory.read_cons, if_neg (by omega)]
      · rfl

theorem Memory.holds.below_eq {m : Memory} {len : Nat} (h : m.holds len) : m.below len = m := by
  refine List.filter_eq_self.mpr (fun x hx => ?_)
  have : x.1 ∈ m.map Prod.fst := List.mem_map_of_mem hx
  rw [show m.map Prod.fst = List.range len from h] at this
  simpa using this

/-- A copy of the first `k` bytes of a memory that holds `len` bytes holds `k` bytes. -/
theorem Memory.holds.below {m : Memory} {len k : Nat} (h : m.holds len) (hk : k ≤ len) : (m.below k).holds k := by
  have hmap : (m.below k).map Prod.fst = (m.map Prod.fst).filter (fun a => decide (a < k)) := by
    rw [Memory.below, List.filter_map]; rfl
  obtain ⟨d, rfl⟩ := Nat.exists_eq_add_of_le hk
  rw [Memory.holds, hmap, show m.map Prod.fst = List.range (k + d) from h, List.range_add, List.filter_append,
    List.filter_eq_self.mpr (by simp), List.filter_eq_nil_iff.mpr (by simp), List.append_nil]

/-- Everything a bind leaves in the reader's source: exactly the bytes of the source below the new `RLEN`. -/
theorem State.holds_bindReader (s : State) {source : Memory} {len : Nat} (h : source.holds len) :
    (s.bindReader source len).rsrc.holds (s.bindReader source len).rlen := h.below (s.boundLength_le len)

theorem State.read_bindReader (s : State) (source : Memory) (len a : Nat) :
    (s.bindReader source len).rsrc.read a =
      if a < (s.bindReader source len).rlen then source.read a else none := Memory.read_below source _ a

/-- Where the register holds the length, all of the source is bound. -/
theorem State.rsrc_bindReader {s : State} {source : Memory} {len : Nat} (h : source.holds len)
    (hl : len < Config.sourceLimit) : (s.bindReader source len).rsrc = source := by
  rw [State.bindReader_rsrc, State.boundLength_of_lt hl, h.below_eq]

/-! ### Appending bytes to the writer's buffer -/

theorem State.read_appendBytes (s : State) (bs : List Byte) (a : Nat) :
    (s.appendBytes bs).wbuf.read a =
      if s.wlen ≤ a ∧ a < s.wlen + bs.length then bs[a - s.wlen]? else s.wbuf.read a := by
  induction bs generalizing s with
  | nil =>
    have : ¬ (s.wlen ≤ a ∧ a < s.wlen) := by omega
    simp [this]
  | cons b bs ih =>
    rw [State.appendBytes_cons, ih, State.appendByte_wlen, State.appendByte_wbuf, List.length_cons]
    rcases Nat.lt_trichotomy a s.wlen with h | h | h
    · rw [if_neg (by omega), if_neg (by omega), Memory.read_write_other _ _ (by omega)]
    · subst h
      rw [if_neg (by omega), if_pos (by omega), Memory.read_write_same]
      simp
    · obtain ⟨d, rfl⟩ : ∃ d, a = s.wlen + 1 + d := ⟨a - (s.wlen + 1), by omega⟩
      by_cases hd : d < bs.length
      · rw [if_pos (by omega), if_pos (by omega), show s.wlen + 1 + d - (s.wlen + 1) = d by omega,
          show s.wlen + 1 + d - s.wlen = d + 1 by omega]
        simp
      · rw [if_neg (by omega), if_neg (by omega), Memory.read_write_other _ _ (by omega)]

theorem State.holds_appendBytes {s : State} (bs : List Byte) (h : s.wbuf.holds s.wlen) :
    (s.appendBytes bs).wbuf.holds (s.wlen + bs.length) := by
  induction bs generalizing s with
  | nil => simpa using h
  | cons b bs ih =>
    have := ih (s := s.appendByte b) (by simpa using h.write_append b)
    rw [State.appendByte_wlen] at this
    rw [State.appendBytes_cons, List.length_cons, show s.wlen + (bs.length + 1) = s.wlen + 1 + bs.length by omega]
    exact this

end Sys2Proof.Machine
end

