-- ==== Sys2Proof/Laws/Reader.lean ====
section
/-! SUPPORT. What `ReadBits` (spec/42_reader.md R132), the direct and the sticky read, and the skip can do, said once. -/

namespace Sys2Proof.Machine

/-- The bits a read of `n` bits at cursor `c` finds, as the read equation of 20_memory.md R43 says. -/
def ReadsBits (source : Memory) (c n : Nat) (r : Word64) : Prop :=
  (∀ j < n, source.bit (c + j) = some (r.getLsbD j)) ∧ ∀ j, n ≤ j → r.getLsbD j = false

/-- The read equation fixes the value. -/
theorem ReadsBits.unique {source : Memory} {c n : Nat} {r r' : Word64} (h : ReadsBits source c n r)
    (h' : ReadsBits source c n r') : r = r' := by
  apply BitVec.eq_of_getLsbD_eq
  intro j _
  by_cases hj : j < n
  · exact Option.some.inj ((h.1 j hj).symm.trans (h'.1 j hj))
  · rw [h.2 j (by omega), h'.2 j (by omega)]

/-- Where every byte is below the length, fetching finds them all. -/
theorem fetchBytes_found {source : Memory} {len : Nat} (h : source.holds len) (idx count : Nat)
    (hle : idx + count ≤ len) :
    ∃ B, fetchBytes source len idx count = .bytes B ∧ B.length = count ∧
      ∀ j < count, B[j]? = source.read (idx + j) := by
  induction count generalizing idx with
  | zero => exact ⟨[], rfl, rfl, fun _ hj => by omega⟩
  | succ count ih =>
    obtain ⟨b, hb⟩ := h.read_some (a := idx) (by omega)
    obtain ⟨B, hB, hlen, hj⟩ := ih (idx + 1) (by omega)
    refine ⟨b :: B, by simp only [fetchBytes, if_neg (show ¬ len ≤ idx by omega), hb, hB], by simp [hlen], ?_⟩
    intro j hjlt
    cases j with
    | zero => simpa using hb.symm
    | succ j => rw [List.getElem?_cons_succ, hj j (by omega), show idx + 1 + j = idx + (j + 1) by omega]

/-- Where a byte is at or above the length, fetching meets the end of the data. -/
theorem fetchBytes_endOfData {source : Memory} {len : Nat} (h : source.holds len) (idx count : Nat)
    (hlt : len < idx + count) (h0 : count ≠ 0) : fetchBytes source len idx count = .endOfData := by
  induction count generalizing idx with
  | zero => exact absurd rfl h0
  | succ count ih =>
    by_cases hi : len ≤ idx
    · simp only [fetchBytes, if_pos hi]
    · obtain ⟨b, hb⟩ := h.read_some (a := idx) (by omega)
      simp only [fetchBytes, if_neg hi, hb, ih (idx + 1) (by omega) (by omega)]

/-- `ReadBits` in a state that holds its source: the four cases of 42_reader.md R142, in order, the fourth split by the
cursor guard of R140. -/
theorem readBits_spec {s : State} (h : s.rsrc.holds s.rlen) {W : Nat} (hW : W ≤ 64) (n : Nat) :
    (W < n ∧ readBits W n s = .raised .bitCountTooBig) ∨
    (n = 0 ∧ readBits W n s = .value 0) ∨
    (n ≤ W ∧ n ≠ 0 ∧ 8 * s.rlen < s.rcur.toNat + n ∧ readBits W n s = .raised .unexpectedEndOfData) ∨
    (n ≤ W ∧ n ≠ 0 ∧ s.rcur.toNat + n ≤ 8 * s.rlen ∧ ∃ r, ReadsBits s.rsrc s.rcur.toNat n r ∧
      ((s.readerCanAdvance n ∧ readBits W n s = .value r) ∨
        (¬ s.readerCanAdvance n ∧ readBits W n s = .overflow))) := by
  by_cases hbig : W < n
  · exact .inl ⟨hbig, if_pos hbig⟩
  by_cases h0 : n = 0
  · exact .inr (.inl ⟨h0, by rw [readBits, if_neg hbig, if_pos h0]⟩)
  have hi : byteIndex s.rcur = s.rcur.toNat / 8 := rfl
  have ho : bitOffset s.rcur = s.rcur.toNat % 8 := rfl
  have hc : bytesFor (bitOffset s.rcur + n) = (s.rcur.toNat % 8 + n + 7) / 8 := rfl
  by_cases hend : 8 * s.rlen < s.rcur.toNat + n
  · have hlt : s.rlen < byteIndex s.rcur + bytesFor (bitOffset s.rcur + n) := by omega
    have hne : bytesFor (bitOffset s.rcur + n) ≠ 0 := by omega
    have hend' := fetchBytes_endOfData h _ _ hlt hne
    exact .inr (.inr (.inl ⟨by omega, h0, hend, by simp only [readBits, if_neg hbig, if_neg h0, hend']⟩))
  · have hle : byteIndex s.rcur + bytesFor (bitOffset s.rcur + n) ≤ s.rlen := by omega
    obtain ⟨B, hB, hlen, hj⟩ := fetchBytes_found h _ _ hle
    have hlen' : (bitOffset s.rcur + n + 7) / 8 ≤ B.length := by rw [hlen]; exact Nat.le_refl _
    obtain ⟨r, hr, hbits, hz⟩ := gather_spec B (bitOffset s.rcur) n (by omega) (by omega) (by omega) hlen'
    refine .inr (.inr (.inr ⟨by omega, h0, by omega, ?_⟩))
    refine ⟨r, ⟨fun j hjn => ?_, hz⟩, ?_⟩
    · rw [← hbits j hjn, hj _ (by omega), Memory.bit, hi, ho]
      congr 2
      · funext b; congr 1; omega
      · omega
    · by_cases ha : s.readerCanAdvance n
      · exact .inl ⟨ha, by simp only [readBits, if_neg hbig, if_neg h0, hB, hr, if_pos ha]⟩
      · exact .inr ⟨ha, by simp only [readBits, if_neg hbig, if_neg h0, hB, hr, if_neg ha]⟩

/-- A read within a source whose length fits `RLEN` cannot make the cursor reach `2^64` (R140). -/
theorem readerCanAdvance_of_le {s : State} {n : Nat} (hl : s.rlen < Config.sourceLimit)
    (h : s.rcur.toNat + n ≤ 8 * s.rlen) : s.readerCanAdvance n := by
  show s.rcur.toNat + n < 2 ^ 64
  have : s.rlen < 2 ^ 61 := hl
  omega

/-- A count that `ReadBits` gives a value for can be added to the cursor: a read never wraps it (R140). -/
theorem readBits_value_advance {s : State} {W n : Nat} {v : Word64} (h : readBits W n s = .value v) :
    s.readerCanAdvance n := by
  unfold readBits at h
  split at h
  · cases h
  · split at h
    · rename_i h0
      subst h0
      exact s.rcur.isLt
    · split at h
      · cases h
      · cases h
      · split at h
        · cases h
        · split at h
          · assumption
          · cases h

/-- Everything a direct read that completes can do. -/
theorem directRead_cases {W n : Nat} {s t : State} (h : directRead W n s = .next t) :
    s.rbound = true ∧
      ((∃ v, readBits W n s = .value v ∧ t = (s.advanceReader n).respond none v) ∨
        ∃ e, readBits W n s = .raised e ∧ t = s.raiseDirect e) := by
  unfold directRead at h
  split at h
  · refine ⟨‹_›, ?_⟩
    split at h
    · exact .inl ⟨_, ‹_›, by simpa using h.symm⟩
    · exact .inr ⟨_, ‹_›, by simpa using h.symm⟩
    · cases h
    · cases h
  · cases h

/-- Everything a sticky read that completes can do. -/
theorem stickyRead_cases {W n : Nat} {s t : State} (h : stickyRead W n s = .next t) :
    s.rbound = true ∧
      ((∃ e, s.serr = some e ∧ t = s.respond none 0) ∨
        (s.serr = none ∧
          ((∃ v, readBits W n s = .value v ∧ t = (s.advanceReader n).respond none v) ∨
            ∃ e, readBits W n s = .raised e ∧ t = s.raiseSticky e))) := by
  unfold stickyRead at h
  split at h
  · refine ⟨‹_›, ?_⟩
    split at h
    · exact .inl ⟨_, ‹_›, by simpa using h.symm⟩
    · refine .inr ⟨‹_›, ?_⟩
      split at h
      · exact .inl ⟨_, ‹_›, by simpa using h.symm⟩
      · exact .inr ⟨_, ‹_›, by simpa using h.symm⟩
      · cases h
      · cases h
  · cases h

/-- Everything a skip that completes can do. -/
theorem skipBits_cases {k : Nat} {s t : State} (h : skipBits k s = .next t) :
    s.rbound = true ∧ s.readerCanAdvance k ∧ t = (s.advanceReader k).respond none 0 := by
  unfold skipBits at h
  split at h
  · split at h
    · exact ⟨‹_›, ‹_›, by simpa using h.symm⟩
    · cases h
  · cases h

/-- Everything an error query that completes can do. -/
theorem execSerrq_cases {s t : State} (h : execSerrq s = .next t) :
    s.rbound = true ∧ t = s.respond none ((errorCode s.serr).setWidth 64) := by
  unfold execSerrq at h
  split at h
  · exact ⟨‹_›, by simpa using h.symm⟩
  · cases h

end Sys2Proof.Machine
end

