-- ==== Sys2Proof/Laws/Writer.lean ====
section
/-! SUPPORT. What `WriteBits` (spec/41_writer.md R111) can do, said once: when it completes, and in which state. -/

namespace Sys2Proof.Machine

theorem bytesFor_def (b : Nat) : bytesFor b = (b + 7) / 8 := rfl

/-- The partial last byte is there whenever the cursor is unaligned (10_state.md R25). -/
theorem State.Inv.byteIndex_lt {s : State} (h : s.Inv) (ho : 0 < bitOffset s.wcur) : byteIndex s.wcur + 1 = s.wlen := by
  have := h.length
  simp only [bytesFor_def] at this
  simp only [bitOffset, byteIndex] at *
  omega

/-- What ORing the head in does: nothing where there is no head, and else one change of a byte that is there. -/
theorem State.orHead_cases {s s₁ : State} {head : Option Byte} (h : s.orHead head = some s₁) :
    (head = none ∧ s₁ = s) ∨
      ∃ hd b, head = some hd ∧ s.wbuf.read (byteIndex s.wcur) = some b ∧
        s₁ = { s with wbuf := s.wbuf.write (byteIndex s.wcur) (b ||| hd) } := by
  unfold State.orHead at h
  split at h
  · exact .inl ⟨rfl, by simpa using h.symm⟩
  · split at h
    · cases h
    · rename_i hd _ b hb
      exact .inr ⟨hd, b, rfl, hb, by simpa using h.symm⟩

/-- Every outcome of `WriteBits`, its guards included. -/
theorem writeBits_cases (W : Nat) (value : BitVec W) (n : Nat) (s : State) :
    (W < n ∧ writeBits W value n s = .refused .writeCountTooBig) ∨
    (n ≤ W ∧ ¬ s.writerCanAdvance n ∧ writeBits W value n s = .refused .writeCursorOverflow) ∨
    (n ≤ W ∧ s.writerCanAdvance n ∧ fits s.wcap (bytesFor (s.wcur.toNat + n)) = false ∧
      writeBits W value n s = .fault .stuckAtCapacity) ∨
    ∃ h : n ≤ W, s.writerCanAdvance n ∧ fits s.wcap (bytesFor (s.wcur.toNat + n)) = true ∧
      ((s.orHead (split (trunc value n h) n (bitOffset s.wcur)).1 = none ∧
        writeBits W value n s = .fault .absentByte) ∨
      ∃ s₁, s.orHead (split (trunc value n h) n (bitOffset s.wcur)).1 = some s₁ ∧
        writeBits W value n s =
          .next (((s₁.appendBytes (split (trunc value n h) n (bitOffset s.wcur)).2).advanceWriter n).respond none 0)) := by
  unfold writeBits
  by_cases hW : n ≤ W
  · by_cases hA : s.writerCanAdvance n
    · by_cases hF : fits s.wcap (bytesFor (s.wcur.toNat + n)) = true
      · refine .inr (.inr (.inr ⟨hW, hA, hF, ?_⟩))
        simp only [dif_pos hW, if_pos hA, if_pos hF]
        cases hO : s.orHead (split (trunc value n hW) n (bitOffset s.wcur)).1 with
        | none => exact .inl ⟨rfl, rfl⟩
        | some s₁ => exact .inr ⟨s₁, rfl, rfl⟩
      · exact .inr (.inr (.inl ⟨hW, hA, by simpa using hF, by simp only [dif_pos hW, if_pos hA, if_neg hF]⟩))
    · exact .inr (.inl ⟨hW, hA, by simp only [dif_pos hW, if_neg hA]⟩)
  · exact .inl ⟨by omega, by simp only [dif_neg hW]⟩

/-- Whatever the state, a write that completes touches nothing of the reader, the parameters or the port, and answers
`STATUS = 0`, `DATA = 0`. -/
theorem writeBits_frame {W : Nat} {value : BitVec W} {n : Nat} {s t : State} (h : writeBits W value n s = .next t) :
    s.sameReader t ∧ s.sameHost t ∧ s.answered t none 0 ∧
      n ≤ W ∧ s.writerCanAdvance n ∧ fits s.wcap (bytesFor (s.wcur.toNat + n)) = true ∧
      t.wcur.toNat = s.wcur.toNat + n := by
  rcases writeBits_cases W value n s with ⟨-, h'⟩ | ⟨-, -, h'⟩ | ⟨-, -, -, h'⟩ | ⟨hW, hA, hF, ⟨-, h'⟩ | ⟨s₁, hO, h'⟩⟩
  all_goals rw [h'] at h
  all_goals try cases h
  have hN := Nat.mod_eq_of_lt (show s.wcur.toNat + n < 2 ^ 64 from hA)
  rcases State.orHead_cases hO with ⟨-, rfl⟩ | ⟨hd, b, -, -, rfl⟩ <;>
    exact ⟨by simp [State.sameReader, State.sameSource], by simp [State.sameHost], by simp [State.answered], hW, hA, hF,
      by simpa using hN⟩

/-- A write draws no free value. -/
theorem writeBits_freeDraws {W : Nat} {value : BitVec W} {n : Nat} {s t : State} (h : writeBits W value n s = .next t) :
    t.freeDraws = s.freeDraws := by
  rcases writeBits_cases W value n s with ⟨-, h'⟩ | ⟨-, -, h'⟩ | ⟨-, -, -, h'⟩ | ⟨_, -, -, ⟨-, h'⟩ | ⟨s₁, hO, h'⟩⟩
  all_goals rw [h'] at h
  all_goals try cases h
  rcases State.orHead_cases hO with ⟨-, rfl⟩ | ⟨hd, b, -, -, rfl⟩ <;> simp

/-- In a state that keeps the invariant, a write that passes its guards completes. -/
theorem writeBits_completes {W : Nat} (value : BitVec W) {n : Nat} {s : State} (hI : s.Inv) (hW : n ≤ W)
    (hA : s.writerCanAdvance n) (hF : fits s.wcap (bytesFor (s.wcur.toNat + n)) = true) :
    ∃ t, writeBits W value n s = .next t := by
  rcases writeBits_cases W value n s with ⟨h, -⟩ | ⟨-, h, -⟩ | ⟨-, -, h, -⟩ | ⟨_, -, -, ⟨h, -⟩ | ⟨s₁, -, h⟩⟩
  · omega
  · exact absurd hA h
  · rw [hF] at h; cases h
  · exfalso
    rcases Nat.eq_zero_or_pos (bitOffset s.wcur) with ho | ho
    · rw [ho, split_fst_aligned] at h
      cases h
    · obtain ⟨hd, hh, -⟩ := split_fst_unaligned (trunc value n hW) n ho
      obtain ⟨b, hb⟩ := hI.wbufHolds.read_some (a := byteIndex s.wcur) (by have := hI.byteIndex_lt ho; omega)
      simp [State.orHead, hh, hb] at h
  · exact ⟨_, h⟩

/-- The memory a completed write leaves, byte by byte: the bytes below the cursor's byte are those before, and every bit
from the cursor up is the value's (41_writer.md R119). -/
theorem writeBits_memory {W : Nat} {value : BitVec W} {n : Nat} {s t : State} (hI : s.Inv) (hn : W ≤ 64)
    (h : writeBits W value n s = .next t) :
    t.wlen = (s.wcur.toNat + n + 7) / 8 ∧ t.wbuf.holds t.wlen ∧
    (∀ a, a < byteIndex s.wcur → t.wbuf.read a = s.wbuf.read a) ∧
    (∀ p < s.wcur.toNat, t.wbuf.bit p = s.wbuf.bit p) ∧
    (∀ p, s.wcur.toNat ≤ p → p < 8 * t.wlen →
      t.wbuf.bit p = some (decide (p - s.wcur.toNat < n) && value.getLsbD (p - s.wcur.toNat))) := by
  rcases writeBits_cases W value n s with ⟨-, h'⟩ | ⟨-, -, h'⟩ | ⟨-, -, -, h'⟩ | ⟨hW, hA, hF, ⟨-, h'⟩ | ⟨s₁, hO, h'⟩⟩
  all_goals rw [h'] at h
  all_goals try cases h
  have hlen := hI.length
  have hv : ∀ j, (trunc value n hW).getLsbD j = (decide (j < n) && value.getLsbD j) := by
    intro j
    rw [getLsbD_trunc]
    by_cases hj : j < n
    · simp [hj, show j < 64 by omega]
    · simp [hj]
  have hT := split_snd_length (trunc value n hW) n (bitOffset s.wcur)
  have hB := split_snd_getElem? (trunc value n hW) n (bitOffset s.wcur)
  generalize (split (trunc value n hW) n (bitOffset s.wcur)).2 = tail at hT hB
  have hread (a : Nat) : (((s₁.appendBytes tail).advanceWriter n).respond none 0).wbuf.read a =
      if s₁.wlen ≤ a ∧ a < s₁.wlen + tail.length then tail[a - s₁.wlen]? else s₁.wbuf.read a := by
    simpa using State.read_appendBytes s₁ tail a
  have hidx : byteIndex s.wcur = s.wcur.toNat / 8 := rfl
  have hofs : bitOffset s.wcur = s.wcur.toNat % 8 := rfl
  -- a bit of an appended byte
  have htail : ∀ p, s₁.wlen = s.wlen → s.wlen ≤ p / 8 → p / 8 < s.wlen + tail.length →
      (tail[p / 8 - s.wlen]?).map (fun b => b.getLsbD (p % 8)) =
        some (decide (p - s.wcur.toNat < n) && value.getLsbD (p - s.wcur.toNat)) := by
    intro p _ h1 h2
    rw [hB (p / 8 - s.wlen) (by omega)]
    have hp : headBits (bitOffset s.wcur) + 8 * (p / 8 - s.wlen) + p % 8 = p - s.wcur.toNat := by
      simp only [bytesFor_def] at hlen
      rcases Nat.eq_zero_or_pos (bitOffset s.wcur) with ho | ho
      · rw [headBits, if_neg (by omega)]; omega
      · rw [headBits, if_pos ho]; omega
    simp only [Option.map_some, BitVec.getLsbD_setWidth, BitVec.getLsbD_ushiftRight, hp, hv]
    simp [show p % 8 < 8 by omega]
  have hlen' : s.wlen + tail.length = (s.wcur.toNat + n + 7) / 8 := by
    rw [hT, hlen, hofs]
    simp only [bytesFor_def]
    rcases Nat.eq_zero_or_pos (s.wcur.toNat % 8) with ho | ho
    · rw [headBits, if_neg (by omega)]; omega
    · rw [headBits, if_pos ho]; omega
  rcases State.orHead_cases hO with ⟨hhd, rfl⟩ | ⟨hd, b, hhd, hb, rfl⟩
  · have ho : bitOffset s₁.wcur = 0 := by
      rcases Nat.eq_zero_or_pos (bitOffset s₁.wcur) with ho | ho
      · exact ho
      · obtain ⟨hd, hh, -⟩ := split_fst_unaligned (trunc value n hW) n ho
        simp [hh] at hhd
    have hc : s₁.wlen = s₁.wcur.toNat / 8 := by rw [hlen]; simp only [bytesFor_def]; omega
    refine ⟨by simpa using hlen', by simpa using State.holds_appendBytes tail hI.wbufHolds, fun a ha => ?_,
      fun p hp => ?_, fun p hp hp' => ?_⟩
    · rw [hread, if_neg (by omega)]
    · rw [Memory.bit, Memory.bit, hread, if_neg (by omega)]
    · simp only [State.respond_wlen, State.advanceWriter_wlen, State.appendBytes_wlen] at hp'
      rw [Memory.bit, hread, if_pos (by omega), htail p rfl (by omega) (by omega)]
  · have ho : 0 < bitOffset s.wcur := by
      rcases Nat.eq_zero_or_pos (bitOffset s.wcur) with ho | ho
      · rw [ho, split_fst_aligned] at hhd; cases hhd
      · exact ho
    have hi := hI.byteIndex_lt ho
    obtain ⟨hd', hh, hbits⟩ := split_fst_unaligned (trunc value n hW) n ho
    obtain rfl : hd' = hd := by rw [hhd] at hh; exact (Option.some.inj hh).symm
    have hpad : ∀ q, q < 8 → s.wcur.toNat % 8 ≤ q → b.getLsbD q = false := by
      intro q hq hq'
      have := hI.padding (8 * byteIndex s.wcur + q) (by omega) (by omega)
      rw [Memory.bit, show (8 * byteIndex s.wcur + q) / 8 = byteIndex s.wcur by omega,
        show (8 * byteIndex s.wcur + q) % 8 = q by omega, hb] at this
      simpa using this
    have hholds : (s.wbuf.write (byteIndex s.wcur) (b ||| hd')).holds s.wlen :=
      hI.wbufHolds.write_present (by omega) _
    refine ⟨by simpa using hlen',
      by simpa using State.holds_appendBytes (s := { s with wbuf := _ }) tail hholds, fun a ha => ?_,
      fun p hp => ?_, fun p hp hp' => ?_⟩
    · rw [hread, if_neg (by simp only; omega), Memory.read_write_other _ _ (by omega)]
    · rw [Memory.bit, Memory.bit, hread, if_neg (by simp only; omega), Memory.read_write]
      split
      · rename_i heq
        rw [heq, hb, Option.map_some, Option.map_some, BitVec.getLsbD_or, hbits,
          decide_eq_true (show p % 8 < bitOffset s.wcur by omega)]
        simp
      · rfl
    · simp only [State.respond_wlen, State.advanceWriter_wlen, State.appendBytes_wlen] at hp'
      rw [Memory.bit, hread]
      by_cases hw : s.wlen ≤ p / 8
      · rw [if_pos (by simp only; omega), htail p rfl hw (by omega)]
      · rw [if_neg (by simp only; omega), Memory.read_write, if_pos (by omega)]
        have : p % 8 - bitOffset s.wcur = p - s.wcur.toNat := by omega
        rw [Option.map_some, BitVec.getLsbD_or, hbits, hpad (p % 8) (by omega) (by omega), this, hv,
          decide_eq_true (show p % 8 < 8 by omega), decide_eq_false (show ¬ p % 8 < bitOffset s.wcur by omega)]
        simp

end Sys2Proof.Machine
end

