-- ==== Sys2Proof/Laws/Exec.lean ====
section
/-! SUPPORT. Which shared operation each command is: the classifications of `Safety.lean` against `exec`, so that a later
proof splits on four shapes of command and not on 22 commands. -/

namespace Sys2Proof.Machine

theorem exec_of_writeForm {i : Instr} {f : WriteForm} (h : writeForm i = some f) (s : State) :
    exec i s = writeBits f.width f.value f.count s := by
  cases i <;> simp only [writeForm, Option.some.injEq, reduceCtorEq] at h <;> subst h <;> rfl

theorem exec_of_directForm {i : Instr} {W n : Nat} (h : directForm i = some (W, n)) (s : State) :
    exec i s = directRead W n s := by
  cases i <;> simp only [directForm, Option.some.injEq, Prod.mk.injEq, reduceCtorEq] at h <;>
    obtain ⟨rfl, rfl⟩ := h <;> rfl

theorem exec_of_stickyForm {i : Instr} {W n : Nat} (h : stickyForm i = some (W, n)) (s : State) :
    exec i s = stickyRead W n s := by
  cases i <;> simp only [stickyForm, Option.some.injEq, Prod.mk.injEq, reduceCtorEq] at h <;>
    obtain ⟨rfl, rfl⟩ := h <;> rfl

theorem exec_of_skip {i : Instr} {k : Nat} (h : i = .rskip k ∨ i = .sskip k) (s : State) :
    exec i s = skipBits k s := by
  rcases h with rfl | rfl <;> rfl

/-- The widths of the write, direct and sticky commands are container widths, at most 64 (00_scope.md R8). -/
theorem writeForm_width {i : Instr} {f : WriteForm} (h : writeForm i = some f) : f.width ≤ 64 := by
  cases i <;> simp only [writeForm, Option.some.injEq, reduceCtorEq] at h <;> subst h <;> simp

theorem directForm_width {i : Instr} {W n : Nat} (h : directForm i = some (W, n)) : W ≤ 64 := by
  cases i <;> simp only [directForm, Option.some.injEq, Prod.mk.injEq, reduceCtorEq] at h <;> omega

theorem stickyForm_width {i : Instr} {W n : Nat} (h : stickyForm i = some (W, n)) : W ≤ 64 := by
  cases i <;> simp only [stickyForm, Option.some.injEq, Prod.mk.injEq, reduceCtorEq] at h <;> omega

/-- Every command is of one shape: a write, a direct read, a sticky read, a skip, or one of the five without operands. -/
theorem instr_shape (i : Instr) :
    (∃ f, writeForm i = some f) ∨ (∃ W n, directForm i = some (W, n)) ∨ (∃ W n, stickyForm i = some (W, n)) ∨
      (∃ k, i = .rskip k ∨ i = .sskip k) ∨ i = .wnew ∨ i = .wbytes ∨ i = .rnewX ∨ i = .rnewW ∨ i = .serrq := by
  cases i <;> simp [writeForm, directForm, stickyForm]

/-! ### Lists of commands -/

@[simp] theorem runCommands_nil (s : State) : runCommands [] s = .next s := rfl

theorem runCommands_cons {i : Instr} {is : List Instr} {s t : State} (h : exec i s = .next t) :
    runCommands (i :: is) s = runCommands is t := by
  simp only [runCommands, h]

/-- A list of commands that completes ran its first command and then the rest. -/
theorem runCommands_cons_inv {i : Instr} {is : List Instr} {s t : State} (h : runCommands (i :: is) s = .next t) :
    ∃ s', exec i s = .next s' ∧ runCommands is s' = .next t := by
  simp only [runCommands] at h
  split at h
  · exact ⟨_, ‹_›, h⟩
  · cases h
  · cases h

/-- A list of commands run after another. -/
theorem runCommands_append {is js : List Instr} {s t : State} (h : runCommands is s = .next t) :
    runCommands (is ++ js) s = runCommands js t := by
  induction is generalizing s with
  | nil => simp only [runCommands, Host.Outcome.next.injEq] at h; rw [← h]; rfl
  | cons i is ih =>
    obtain ⟨s', h1, h2⟩ := runCommands_cons_inv h
    rw [List.cons_append, runCommands_cons h1, ih h2]

end Sys2Proof.Machine
end

