-- ==== Sys2Proof/Laws/Run.lean ====
section
/-! SUPPORT. Runs of steps: one step of a run by the step's outcome, and that no command looks at or changes what stands
on the port (spec/00_scope.md R14). -/

namespace Sys2Proof.Machine

theorem run_zero (s : State) : Sys2Proof.core.run 0 s = .next s := rfl

theorem run_succ_next {s t : State} (h : step s = .next t) (k : Nat) :
    Sys2Proof.core.run (k + 1) s = Sys2Proof.core.run k t := by
  have h' : Sys2Proof.core.step s = .next t := h
  simp only [Host.Core.run, h']

theorem run_succ_fault {s : State} {r : Fault} (h : step s = .fault r) (k : Nat) :
    Sys2Proof.core.run (k + 1) s = .fault r := by
  have h' : Sys2Proof.core.step s = .fault r := h
  simp only [Host.Core.run, h']

theorem run_succ_refused {s : State} {r : Refusal} (h : step s = .refused r) (k : Nat) :
    Sys2Proof.core.run (k + 1) s = .refused r := by
  have h' : Sys2Proof.core.step s = .refused r := h
  simp only [Host.Core.run, h']

/-- A run that completes one more step took a step that completed, and the rest completed from there. -/
theorem run_succ_inv {s t : State} {k : Nat} (h : Sys2Proof.core.run (k + 1) s = .next t) :
    ∃ s', step s = .next s' ∧ Sys2Proof.core.run k s' = .next t := by
  cases hs : step s with
  | next s' => exact ⟨s', rfl, by rw [← h, run_succ_next hs]⟩
  | fault r => rw [run_succ_fault hs] at h; cases h
  | refused r => rw [run_succ_refused hs] at h; cases h

/-- The state with something else on the port. -/
def State.onPort (inputs : List HostInput) (s : State) : State := { s with inputs := inputs }

/-- The outcome with its next state changed. -/
def mapNext (f : State → State) :
    Host.Outcome State Fault Refusal → Host.Outcome State Fault Refusal
  | .next s => .next (f s)
  | .fault r => .fault r
  | .refused r => .refused r

theorem State.appendBytes_onPort (s : State) (inputs : List HostInput) (bs : List Byte) :
    (s.onPort inputs).appendBytes bs = (s.appendBytes bs).onPort inputs := by
  induction bs generalizing s with
  | nil => rfl
  | cons b bs ih => exact ih (s.appendByte b)

theorem State.orHead_onPort (s : State) (inputs : List HostInput) (head : Option Byte) :
    (s.onPort inputs).orHead head = (s.orHead head).map (State.onPort inputs) := by
  cases head with
  | none => rfl
  | some h =>
    simp only [State.orHead, State.onPort]
    cases s.wbuf.read (byteIndex s.wcur) <;> rfl

theorem writeBits_onPort (W : Nat) (value : BitVec W) (n : Nat) (s : State) (inputs : List HostInput) :
    writeBits W value n (s.onPort inputs) = mapNext (State.onPort inputs) (writeBits W value n s) := by
  unfold writeBits
  by_cases h1 : n ≤ W
  · rw [dif_pos h1, dif_pos h1]
    by_cases h2 : s.writerCanAdvance n
    · rw [if_pos h2, if_pos (show (s.onPort inputs).writerCanAdvance n from h2)]
      by_cases h3 : fits s.wcap (bytesFor (s.wcur.toNat + n)) = true
      · rw [if_pos h3, if_pos (show fits (s.onPort inputs).wcap (bytesFor ((s.onPort inputs).wcur.toNat + n)) = true
          from h3)]
        simp only
        rw [State.orHead_onPort, show (s.onPort inputs).wcur = s.wcur from rfl]
        cases s.orHead (split (trunc value n h1) n (bitOffset s.wcur)).1 with
        | none => rfl
        | some s₁ => simp only [Option.map_some, State.appendBytes_onPort]; rfl
      · rw [if_neg h3, if_neg (show ¬ fits (s.onPort inputs).wcap (bytesFor ((s.onPort inputs).wcur.toNat + n)) = true
          from h3)]
        rfl
    · rw [if_neg h2, if_neg (show ¬ (s.onPort inputs).writerCanAdvance n from h2)]; rfl
  · rw [dif_neg h1, dif_neg h1]; rfl

theorem directRead_onPort (W n : Nat) (s : State) (inputs : List HostInput) :
    directRead W n (s.onPort inputs) = mapNext (State.onPort inputs) (directRead W n s) := by
  unfold directRead
  rw [show (s.onPort inputs).rbound = s.rbound from rfl, show readBits W n (s.onPort inputs) = readBits W n s from rfl]
  cases s.rbound <;> simp only [if_true, Bool.false_eq_true, if_false]
  · rfl
  · cases readBits W n s <;> rfl

theorem stickyRead_onPort (W n : Nat) (s : State) (inputs : List HostInput) :
    stickyRead W n (s.onPort inputs) = mapNext (State.onPort inputs) (stickyRead W n s) := by
  unfold stickyRead
  rw [show (s.onPort inputs).rbound = s.rbound from rfl, show readBits W n (s.onPort inputs) = readBits W n s from rfl,
    show (s.onPort inputs).serr = s.serr from rfl]
  cases s.rbound <;> simp only [if_true, Bool.false_eq_true, if_false]
  · rfl
  · cases s.serr with
    | none => cases readBits W n s <;> rfl
    | some e => rfl

theorem skipBits_onPort (k : Nat) (s : State) (inputs : List HostInput) :
    skipBits k (s.onPort inputs) = mapNext (State.onPort inputs) (skipBits k s) := by
  unfold skipBits
  rw [show (s.onPort inputs).rbound = s.rbound from rfl]
  cases s.rbound <;> simp only [if_true, Bool.false_eq_true, if_false]
  · rfl
  · by_cases h : s.readerCanAdvance k
    · rw [if_pos h, if_pos (show (s.onPort inputs).readerCanAdvance k from h)]; rfl
    · rw [if_neg h, if_neg (show ¬ (s.onPort inputs).readerCanAdvance k from h)]; rfl

/-- No command looks at or changes the port. -/
theorem exec_onPort (i : Instr) (s : State) (inputs : List HostInput) :
    exec i (s.onPort inputs) = mapNext (State.onPort inputs) (exec i s) := by
  rcases instr_shape i with ⟨f, h⟩ | ⟨W, n, h⟩ | ⟨W, n, h⟩ | ⟨k, h⟩ | rfl | rfl | rfl | rfl | rfl
  · rw [exec_of_writeForm h, exec_of_writeForm h, writeBits_onPort]
  · rw [exec_of_directForm h, exec_of_directForm h, directRead_onPort]
  · rw [exec_of_stickyForm h, exec_of_stickyForm h, stickyRead_onPort]
  · rw [exec_of_skip h, exec_of_skip h, skipBits_onPort]
  · rfl
  · rfl
  · rfl
  · rfl
  · simp only [exec, execSerrq]
    rw [show (s.onPort inputs).rbound = s.rbound from rfl]
    cases s.rbound <;> rfl

end Sys2Proof.Machine
end

