-- ==== Sys2Proof/Tests/Slice0.lean ====
section
/-! SUPPORT. The model's own tests, each of one step or of one function on small values taken from the spec (the place is
named), and for every statement with hypotheses a witness that meets them together. -/

namespace Sys2Proof.Tests

open Sys2Proof Sys2Proof.Machine

/-! ### States of the tests -/

/-- A writer that holds `bytes`, its cursor at bit `cursor`; no reader. -/
def writerAt (bytes : List Byte) (cursor : Nat) : State :=
  { State.reset with wbuf := Memory.ofBytes 0 bytes, wlen := bytes.length, wcur := BitVec.ofNat 64 cursor }

/-- A reader over `bytes`, its cursor at bit `cursor`, with the stored error `e`; an empty writer. -/
def readerAt (bytes : List Byte) (cursor : Nat) (e : Option ErrorKind := none) : State :=
  { State.reset with
    rsrc := Memory.ofBytes 0 bytes, rlen := bytes.length, rcur := BitVec.ofNat 64 cursor, rbound := true, serr := e }

/-- The byte sequence of Scenario C (95_test_vectors.md 1.3). -/
def scenarioC : List Byte := [0x6B, 0x4D]

/-- A next state and no stop. -/
def completes : Host.Outcome State Fault Refusal → Bool
  | .next _ => true
  | .fault _ => false
  | .refused _ => false

/-! ### WellFormed refuses an ill-formed term, for each check -/

theorem test_wellFormed_refuses_count :
    [Instr.wr8 0 256, .wr16 0 256, .wr32 0 256, .wr64 0 256, .rd8 256, .rd16 256, .rd32 256, .rd64 256, .srd8 256,
      .srd16 256, .srd32 256, .srd64 256].all (fun i => !i.wellFormed) = true := by decide

theorem test_wellFormed_refuses_skip :
    [Instr.rskip (2 ^ 64), .sskip (2 ^ 64)].all (fun i => !i.wellFormed) = true := by decide

theorem test_wellFormed_accepts_limits :
    [Instr.wr8 0xFF 255, .rd64 255, .srd16 255, .rskip (2 ^ 64 - 1), .sskip (2 ^ 64 - 1)].all Instr.wellFormed
      = true := by decide

/-! ### Decoding: words written out from R74 and 95_test_vectors.md 2.4 -/

theorem test_decode_writer :
    decode 0x10000000000000000000 = .command .wnew ∧
    decode 0x20000000000000000001 = .command (.wrb true) ∧ decode 0x20000000000000000000 = .command (.wrb false) ∧
    decode 0x2105000000000000001D = .command (.wr8 0x1D 5) ∧
    decode 0x21FF00000000000000FF = .command (.wr8 0xFF 255) ∧
    decode 0x2210000000000000FFFF = .command (.wr16 0xFFFF 16) ∧
    decode 0x232000000000FEEDDEAD = .command (.wr32 0xFEEDDEAD 32) ∧
    decode 0x2441FFFFFFFFFFFFFFFF = .command (.wr64 0xFFFFFFFFFFFFFFFF 65) ∧
    decode 0x30000000000000000000 = .command .wbytes := by decide

theorem test_decode_reader :
    decode 0x40000000000000000000 = .command .rnewX ∧ decode 0x41000000000000000000 = .command .rnewW ∧
    decode 0x50000000000000000000 = .command .rdb ∧ decode 0x51FF0000000000000000 = .command (.rd8 255) ∧
    decode 0x520A0000000000000000 = .command (.rd16 10) ∧ decode 0x53200000000000000000 = .command (.rd32 32) ∧
    decode 0x54400000000000000000 = .command (.rd64 64) ∧
    decode 0x6000FFFFFFFFFFFFFFFF = .command (.rskip 18446744073709551615) := by decide

theorem test_decode_sticky :
    decode 0x70000000000000000000 = .command .srdb ∧ decode 0x71040000000000000000 = .command (.srd8 4) ∧
    decode 0x720C0000000000000000 = .command (.srd16 12) ∧ decode 0x73140000000000000000 = .command (.srd32 20) ∧
    decode 0x74410000000000000000 = .command (.srd64 65) ∧ decode 0x80000000000000000008 = .command (.sskip 8) ∧
    decode 0x90000000000000000000 = .command .serrq := by decide

theorem test_decode_reserved_op_and_sub :
    decode 0x00000000000000000000 = .invalid .reservedOp ∧ decode 0xA0000000000000000000 = .invalid .reservedOp ∧
    decode 0xFFFFFFFFFFFFFFFFFFFF = .invalid .reservedOp ∧ decode 0x11000000000000000000 = .invalid .reservedSub ∧
    decode 0x25000000000000000000 = .invalid .reservedSub ∧ decode 0x42000000000000000000 = .invalid .reservedSub ∧
    decode 0x55000000000000000000 = .invalid .reservedSub ∧ decode 0x61000000000000000003 = .invalid .reservedSub ∧
    decode 0x75000000000000000000 = .invalid .reservedSub := by decide

theorem test_decode_reserved_bits :
    decode 0x10000000000000000001 = .invalid .nonzeroVal ∧ decode 0x20000000000000000002 = .invalid .nonzeroVal ∧
    decode 0x20010000000000000001 = .invalid .nonzeroBc ∧ decode 0x2105000000000000011D = .invalid .nonzeroVal ∧
    decode 0x2209000000000001FFFF = .invalid .nonzeroVal ∧ decode 0x23200000000100000000 = .invalid .nonzeroVal ∧
    decode 0x30010000000000000000 = .invalid .nonzeroBc ∧ decode 0x50010000000000000000 = .invalid .nonzeroBc ∧
    decode 0x51080000000000000001 = .invalid .nonzeroVal ∧ decode 0x60010000000000000000 = .invalid .nonzeroBc ∧
    decode 0x80080000000000000000 = .invalid .nonzeroBc ∧ decode 0x90000000000000000001 = .invalid .nonzeroVal := by
  decide

/-- The worked encodings of R74 and two words of 95_test_vectors.md section 3. -/
theorem test_encode :
    encode (.wr8 0x1D 5) = 0x2105000000000000001D ∧ encode (.wr16 0xABC 12) = 0x220C0000000000000ABC ∧
    encode (.rd16 10) = 0x520A0000000000000000 ∧ encode (.rskip 3) = 0x60000000000000000003 ∧
    encode (.wrb true) = 0x20000000000000000001 ∧ encode (.wr32 0xCAFEF00D 32) = 0x232000000000CAFEF00D ∧
    encode (.srd32 20) = 0x73140000000000000000 ∧ encode (.sskip 8) = 0x80000000000000000008 := by decide

theorem test_decodeTableWord :
    decodeTableWord 80 0x2105000000000000001D = some (.wr8 0x1D 5) ∧ decodeTableWord 80 0 = none := by decide

/-- A word placed with `withFetchWord` is the next command (R21), and a reserved one is refused (R75). -/
theorem test_withFetchWord :
    step (State.reset.withFetchWord 80 0x2105000000000000001D) = .next ((writerAt [0x1D] 5).respond none 0) ∧
    step (State.reset.withFetchWord 80 0) = .refused (.reservedEncoding .reservedOp) := ⟨rfl, rfl⟩

/-! ### The assembler (R77) -/

theorem test_assemble :
    assembleLine "WR8 0x1D, 5 ; five bits".toList = .command (.wr8 0x1D 5) ∧
    assembleLine "RNEW.W".toList = .command .rnewW ∧ assembleLine "; nothing".toList = .blank ∧
    assembleLine "WR16 0b1010, 4".toList = .command (.wr16 10 4) ∧ assembleLine "SSKIP 8".toList = .command (.sskip 8) := by
  decide

theorem test_assemble_rejects :
    assembleLine "WR8 256, 5".toList = .error .outOfRange ∧ assembleLine "RD8 256".toList = .error .outOfRange ∧
    assembleLine "WRB 2".toList = .error .outOfRange ∧ assembleLine "rdb".toList = .error .unknownMnemonic ∧
    assembleLine "RDB 1".toList = .error .operandCount ∧ assembleLine "RSKIP x".toList = .error .notANumber := by decide

/-! ### The shift-and-mask unit (95_test_vectors.md 2.1, 2.2) and the mapper (2.3) -/

theorem test_mask :
    mask 0 1 (by decide) = 0 ∧ mask 1 1 (by decide) = 1 ∧ mask 7 8 (by decide) = 0x7F ∧ mask 8 8 (by decide) = 0xFF ∧
    mask 15 16 (by decide) = 0x7FFF ∧ mask 32 32 (by decide) = 0xFFFFFFFF ∧ mask 32 64 (by decide) = 0xFFFFFFFF ∧
    mask 64 64 (by decide) = 0xFFFFFFFFFFFFFFFF := by decide

theorem test_trunc :
    trunc (0xFD : BitVec 8) 5 (by decide) = 0x1D ∧ trunc (0xFF : BitVec 8) 0 (by decide) = 0 ∧
    trunc (0xAB : BitVec 8) 8 (by decide) = 0xAB ∧ trunc (0x1234 : BitVec 16) 5 (by decide) = 0x14 ∧
    trunc (0x8000000000000001 : BitVec 64) 63 (by decide) = 1 := by decide

theorem test_split :
    split 0 0 0 = (none, []) ∧ split 0 0 3 = (some 0, []) ∧ split 1 1 7 = (some 0x80, []) ∧
    split 0xABC 12 1 = (some 0x78, [0x15]) ∧ split 0xFFFF 16 4 = (some 0xF0, [0xFF, 0x0F]) ∧
    split 0x1F 5 3 = (some 0xF8, []) ∧
    split 0x0123456789ABCDEF 64 7 = (some 0x80, [0xF7, 0xE6, 0xD5, 0xC4, 0xB3, 0xA2, 0x91, 0x00]) ∧
    split 0x3FFFFFFFFFFFFFF 58 7 = (some 0x80, [0xFF, 0xFF, 0xFF, 0xFF, 0xFF, 0xFF, 0xFF, 0x01]) := by decide

theorem test_gather :
    gather [0xFF] 7 1 = some 1 ∧ gather [0xA5, 0x5A] 4 8 = some 0xAA ∧ gather [0xA5, 0x5A] 1 7 = some 0x52 ∧
    gather [0xA5, 0x5A] 7 9 = some 0xB5 ∧ gather [0xA5, 0x5A] 3 13 = some 0xB54 ∧ gather [0xFF, 0xFF] 2 3 = some 7 ∧
    gather [0xFF, 0xF7, 0xE6, 0xD5, 0xC4, 0xB3, 0xA2, 0x91, 0x80] 7 64 = some 0x0123456789ABCDEF := by decide

theorem test_mapper :
    byteIndex 21 = 2 ∧ bitOffset 21 = 5 ∧ byteIndex 64 = 8 ∧ bitOffset 64 = 0 ∧
    byteIndex 18446744073709551615 = 2305843009213693951 ∧ bitOffset 18446744073709551615 = 7 := by decide

/-! ### The writer, one step each (95_test_vectors.md 2.5, 2.8) -/

theorem test_wnew : exec .wnew (writerAt [0xDD, 0x78, 0x15] 21) = .next ((writerAt [] 0).respond none 0) := rfl

theorem test_wrb : exec (.wrb true) (writerAt [0x05] 3) = .next ((writerAt [0x0D] 4).respond none 0) := rfl

theorem test_wrb_appends : exec (.wrb false) (writerAt [0xFF] 8) = .next ((writerAt [0xFF, 0x00] 9).respond none 0) := rfl

theorem test_wr8 : exec (.wr8 0x06 4) (writerAt [0x1D] 5) = .next ((writerAt [0xDD, 0x00] 9).respond none 0) := rfl

theorem test_wr8_discards : exec (.wr8 0xAB 4) (writerAt [] 0) = .next ((writerAt [0x0B] 4).respond none 0) := rfl

theorem test_wr16 :
    exec (.wr16 0x0ABC 12) (writerAt [0xDD, 0x00] 9) = .next ((writerAt [0xDD, 0x78, 0x15] 21).respond none 0) := rfl

theorem test_wr16_wide :
    exec (.wr16 0xFFFF 16) (writerAt [0x05] 3) = .next ((writerAt [0xFD, 0xFF, 0x07] 19).respond none 0) := rfl

theorem test_wr32 :
    exec (.wr32 0xDEADBEEF 20) (writerAt [0x0F] 4) = .next ((writerAt [0xFF, 0xEE, 0xDB] 24).respond none 0) := rfl

theorem test_wr32_aligned :
    exec (.wr32 0xDEADBEEF 32) (writerAt [] 0) = .next ((writerAt [0xEF, 0xBE, 0xAD, 0xDE] 32).respond none 0) := rfl

theorem test_wr64 :
    exec (.wr64 0xFFFFFFFFFFFFFFFF 64) (writerAt [0x7F] 7) =
      .next ((writerAt [0xFF, 0xFF, 0xFF, 0xFF, 0xFF, 0xFF, 0xFF, 0xFF, 0x7F] 71).respond none 0) := rfl

theorem test_wr64_part :
    exec (.wr64 0x1FFFFFFFF 33) (writerAt [0xAA, 0x02] 10) =
      .next ((writerAt [0xAA, 0xFE, 0xFF, 0xFF, 0xFF, 0x07] 43).respond none 0) := rfl

theorem test_wbytes :
    exec .wbytes (writerAt [0xDD, 0x78, 0x15] 21) =
      .next ((writerAt [0xDD, 0x78, 0x15] 21).respondBytes 3 [0xDD, 0x78, 0x15]) := rfl

theorem test_write_refused :
    exec (.wr8 0 9) (writerAt [] 0) = .refused .writeCountTooBig ∧
    exec (.wr64 0 65) (writerAt [] 0) = .refused .writeCountTooBig := ⟨rfl, rfl⟩

/-- `WCAP = 2`: 16 bits written, and 15. -/
theorem test_write_capacity :
    exec (.wrb false) { writerAt [0xFF, 0xFF] 16 with wcap := some 2 } = .fault .stuckAtCapacity ∧
    exec (.wrb true) { writerAt [0xFF, 0x7F] 15 with wcap := some 2 } =
      .next ({ writerAt [0xFF, 0xFF] 16 with wcap := some 2 }.respond none 0) := ⟨rfl, rfl⟩

/-! ### The reader, one step each (95_test_vectors.md 2.6) -/

theorem test_rnewX :
    exec .rnewX { State.reset with xsrc := [0xA7, 0x5C, 0xE1] } =
      .next ({ readerAt [0xA7, 0x5C, 0xE1] 0 with xsrc := [0xA7, 0x5C, 0xE1] }.respond none 0) := rfl

theorem test_rnewW :
    exec .rnewW (writerAt [0x6B, 0x4D] 15) =
      .next ({ writerAt [0x6B, 0x4D] 15 with rsrc := Memory.ofBytes 0 [0x6B, 0x4D], rlen := 2, rbound := true }
        |>.respond none 0) := rfl

/-- A writer of `2^61` bytes, more than `RLEN` can hold: `RNEW.W` binds fewer (R31). -/
theorem test_rnewW_top (bs : List Byte) (c : Nat) (h : bs.length = 2 ^ 61) :
    ∃ t, exec .rnewW (writerAt bs c) = .next t ∧ t.rlen < 2 ^ 61 ∧ (writerAt bs c).wlen = 2 ^ 61 :=
  ⟨_, rfl, State.boundLength_lt _ _, h⟩

theorem test_rdb : exec .rdb (readerAt [0x0D] 3) = .next ((readerAt [0x0D] 4).respond none 1) := rfl

theorem test_rdb_end :
    exec .rdb (readerAt [0x0D] 8) = .next ((readerAt [0x0D] 8).respond (some .unexpectedEndOfData) 0) := rfl

theorem test_rd8 : exec (.rd8 6) (readerAt scenarioC 10) = .next ((readerAt scenarioC 16).respond none 0x13) := rfl

/-- Both errors would apply: the count is checked first (R175). -/
theorem test_rd8_priority :
    exec (.rd8 9) (readerAt scenarioC 16) = .next ((readerAt scenarioC 16).respond (some .bitCountTooBig) 0) := rfl

theorem test_rd16 : exec (.rd16 15) (readerAt scenarioC 1) = .next ((readerAt scenarioC 16).respond none 0x26B5) := rfl

theorem test_rd16_end :
    exec (.rd16 16) (readerAt scenarioC 1) = .next ((readerAt scenarioC 1).respond (some .unexpectedEndOfData) 0) := rfl

theorem test_rd32 :
    exec (.rd32 24) (readerAt [0xAD, 0xDE, 0xED, 0xFE] 4) =
      .next ((readerAt [0xAD, 0xDE, 0xED, 0xFE] 28).respond none 0xEEDDEA) := rfl

theorem test_rd64 :
    exec (.rd64 64) (readerAt [0x80, 0xFF, 0xFF, 0xFF, 0xFF, 0xFF, 0xFF, 0xFF, 0x7F] 7) =
      .next ((readerAt [0x80, 0xFF, 0xFF, 0xFF, 0xFF, 0xFF, 0xFF, 0xFF, 0x7F] 71).respond none 0xFFFFFFFFFFFFFFFF) :=
  rfl

theorem test_rd64_zero_past_end :
    exec (.rd64 0) (readerAt scenarioC 1000) = .next ((readerAt scenarioC 1000).respond none 0) := rfl

theorem test_rskip : exec (.rskip 100) (readerAt scenarioC 10) = .next ((readerAt scenarioC 110).respond none 0) := rfl

theorem test_rskip_limit :
    exec (.rskip 18446744073709551615) (readerAt scenarioC 0) =
      .next ((readerAt scenarioC 18446744073709551615).respond none 0) ∧
    exec (.rskip 18446744073709551615) (readerAt scenarioC 1) = .refused .skipCursorOverflow := by
  constructor
  · rw [exec_of_skip (.inl rfl), skipBits, if_pos (by decide), if_pos (by decide)]
    rfl
  · rw [exec_of_skip (.inl rfl), skipBits, if_pos (by decide), if_neg (by decide)]

/-! ### The sticky wrapper, one step each (95_test_vectors.md 2.7) -/

theorem test_srdb :
    exec .srdb (readerAt scenarioC 16) = .next ((readerAt scenarioC 16 (some .unexpectedEndOfData)).respond none 0) := rfl

theorem test_srdb_frozen :
    exec .srdb (readerAt [0x0D] 3 (some .unexpectedEndOfData)) =
      .next ((readerAt [0x0D] 3 (some .unexpectedEndOfData)).respond none 0) := rfl

theorem test_srd8 : exec (.srd8 6) (readerAt scenarioC 0) = .next ((readerAt scenarioC 6).respond none 0x2B) := rfl

theorem test_srd8_latches :
    exec (.srd8 9) (readerAt scenarioC 16) = .next ((readerAt scenarioC 16 (some .bitCountTooBig)).respond none 0) := rfl

theorem test_srd16 :
    exec (.srd16 7) (readerAt scenarioC 10) =
      .next ((readerAt scenarioC 10 (some .unexpectedEndOfData)).respond none 0) := rfl

theorem test_srd16_keeps_first :
    exec (.srd16 17) (readerAt scenarioC 10 (some .unexpectedEndOfData)) =
      .next ((readerAt scenarioC 10 (some .unexpectedEndOfData)).respond none 0) := rfl

theorem test_srd32 :
    exec (.srd32 32) (readerAt [0xAD, 0xDE, 0xED, 0xFE] 0) =
      .next ((readerAt [0xAD, 0xDE, 0xED, 0xFE] 32).respond none 0xFEEDDEAD) := rfl

theorem test_srd64 :
    exec (.srd64 65) (readerAt scenarioC 0) = .next ((readerAt scenarioC 0 (some .bitCountTooBig)).respond none 0) := rfl

theorem test_sskip_errored :
    exec (.sskip 4) (readerAt scenarioC 6 (some .bitCountTooBig)) =
      .next ((readerAt scenarioC 10 (some .bitCountTooBig)).respond none 0) := rfl

theorem test_serrq :
    exec .serrq (readerAt scenarioC 6 (some .unexpectedEndOfData)) =
      .next ((readerAt scenarioC 6 (some .unexpectedEndOfData)).respond none 2) := rfl

/-- The outcomes of 95_test_vectors.md 2.8 in the reset state. -/
theorem test_unbound :
    [Instr.rd8 1, .rdb, .rskip 0, .srd8 0, .sskip 0, .serrq].all (fun i => !completes (exec i State.reset)) = true := by
  decide

/-! ### States of the witnesses -/

/-- The writer after Scenario A (95_test_vectors.md 1.1). -/
theorem inv_writerAt : (writerAt [0xDD, 0x78, 0x15] 21).Inv :=
  ⟨by decide, by decide, by decide, by decide, by decide, by decide, by decide, by decide⟩

/-- A writer in the middle of its only byte. -/
theorem inv_writerAt_unaligned : (writerAt [0x7F] 7).Inv :=
  ⟨by decide, by decide, by decide, by decide, by decide, by decide, by decide, by decide⟩

theorem inv_readerAt (e : Option ErrorKind) : (readerAt scenarioC 10 e).Inv := by
  cases e with
  | none => exact ⟨by decide, by decide, by decide, by decide, by decide, by decide, by decide, by decide⟩
  | some e => cases e <;> exact ⟨by decide, by decide, by decide, by decide, by decide, by decide, by decide, by decide⟩

/-- A writer of only zeros, as far as a cursor can go. -/
theorem inv_writerAt_zeros (n : Nat) (h : 8 * n < 2 ^ 64) : (writerAt (List.replicate n 0) (8 * n)).Inv := by
  have hc : (writerAt (List.replicate n 0) (8 * n)).wcur.toNat = 8 * n := by
    show (BitVec.ofNat 64 (8 * n)).toNat = 8 * n
    rw [BitVec.toNat_ofNat, Nat.mod_eq_of_lt h]
  have hl : (writerAt (List.replicate n 0) (8 * n)).wlen = n := List.length_replicate
  refine ⟨?_, ?_, ?_, rfl, rfl, Nat.two_pow_pos 61, fun _ => ⟨rfl, rfl, rfl, rfl⟩, Nat.two_pow_pos 61⟩
  · exact Memory.holds_ofBytes _
  · rw [hl, hc, bytesFor_def]; omega
  · intro p hp hp'
    rw [hl] at hp
    rw [hc] at hp'
    omega

/-- A reader of only zeros whose cursor is anywhere, as long as a source can be. -/
theorem inv_readerAt_zeros (n c : Nat) (h : n < 2 ^ 61) : (readerAt (List.replicate n 0) c).Inv := by
  have hl : (readerAt (List.replicate n 0) c).rlen = n := List.length_replicate
  refine ⟨rfl, (by decide : 0 = bytesFor 0), fun p hp => absurd hp (Nat.not_lt_zero p), rfl, ?_, ?_, fun h => (by cases h),
    Nat.two_pow_pos 61⟩
  · exact Memory.holds_ofBytes _
  · rw [hl]; exact h

/-! ### Witnesses: the hypotheses of the statements can be met together -/

theorem witness_DecodeAfterEncodeIsIdentity : (Instr.wr8 0xFF 255).wellFormed = true := by decide

theorem witness_EncodeAfterDecodeIsIdentity :
    decode 0x21FF00000000000000FF = .command (.wr8 0xFF 255) := by decide

theorem witness_OpcodeMapAgreesWithDecoder :
    (∃ row ∈ opcodeTable, row.accepts 0x2105000000000000001D) ∧
    decode 0x2105000000000000001D = .command (.wr8 0x1D 5) := by decide

theorem witness_ReservedWordsAreInvalidAndRefused :
    (∀ row ∈ opcodeTable, ¬ row.accepts 0) ∧ decode 0 = .invalid .reservedOp := by decide

theorem witness_StepExecutesTheDecodedCommand :
    ∃ s : State, s.inputs = [.command (encode .wnew)] ∧ decode (encode .wnew) = .command .wnew ∧
      Instr.wnew.wellFormed = true :=
  ⟨{ State.reset with inputs := [.command (encode .wnew)] }, rfl, by decide, rfl⟩

theorem witness_EncodedRunIsCommandRun : ∀ i ∈ [Instr.wr8 0x1D 5, .rnewW, .rd8 5], i.wellFormed = true := by decide

/-- A line that assembles at the limits, and for each operand position a line with a number at its limit. -/
theorem witness_AssembledCommandsAreWellFormed :
    assembleLine "WR8 0xFF, 255".toList = .command (.wr8 0xFF 255) ∧
    (lineMnemonic "WR8 255, 255".toList = (Instr.wr8 0 0).mnemonic.toList ∧
      (lineOperands "WR8 255, 255".toList).map numberValue = [255, 255].map some ∧
      ∀ p ∈ [255, 255].zip (operandLimits (.wr8 0 0)), p.1 < p.2) ∧
    ((lineOperands "WR8 256, 5".toList).map numberValue = [256, 5].map some ∧
      ∃ p ∈ [256, 5].zip (operandLimits (.wr8 0 0)), p.2 ≤ p.1) ∧
    ((lineOperands "WR8 5, 256".toList).map numberValue = [5, 256].map some ∧
      ∃ p ∈ [5, 256].zip (operandLimits (.wr8 0 0)), p.2 ≤ p.1) ∧
    (lineMnemonic "WRB 2".toList = (Instr.wrb false).mnemonic.toList ∧
      (lineOperands "WRB 2".toList).map numberValue = [2].map some ∧
      ∃ p ∈ [2].zip (operandLimits (.wrb false)), p.2 ≤ p.1) ∧
    (lineMnemonic "SSKIP 18446744073709551616".toList = (Instr.sskip 0).mnemonic.toList ∧
      (lineOperands "SSKIP 18446744073709551616".toList).map numberValue = [2 ^ 64].map some ∧
      ∃ p ∈ [2 ^ 64].zip (operandLimits (.sskip 0)), p.2 ≤ p.1) ∧
    (lineMnemonic "RDB".toList = Instr.rdb.mnemonic.toList ∧ lineOperands "RDB".toList = [] ∧
      (operandLimits .rdb).length = 0) := by decide

/-- One state for each clause: nothing on the port, a sequence placed, one too long, a reset. -/
theorem witness_HostActionsBesideCommands :
    State.reset.inputs = [] ∧
    (∃ s : State, s.inputs = [.placeSource [0xA7]] ∧ [(0xA7 : Byte)].length < 2 ^ 61) ∧
    (∃ (s : State) (bytes : List Byte), s.inputs = [.placeSource bytes] ∧ 2 ^ 61 ≤ bytes.length) ∧
    (∃ s : State, s.inputs = [.reset]) :=
  ⟨rfl, ⟨{ State.reset with inputs := [.placeSource [0xA7]] }, rfl, by decide⟩,
    ⟨{ State.reset with inputs := [.placeSource (List.replicate (2 ^ 61) 0)] }, List.replicate (2 ^ 61) 0, rfl,
      Nat.le_of_eq List.length_replicate.symm⟩,
    ⟨{ State.reset with inputs := [.reset] }, rfl⟩⟩

theorem witness_InvariantHoldsAtReset : ([0xA7, 0x5C, 0xE1] : List Byte).length < 2 ^ 61 := by decide

theorem witness_StepKeepsInvariant :
    ∃ s t : State, s.Inv ∧ step s = .next t :=
  ⟨{ writerAt [0xDD, 0x78, 0x15] 21 with inputs := [.command 0x20000000000000000001] }, _,
    ⟨by decide, by decide, by decide, by decide, by decide, by decide, by decide, by decide⟩, rfl⟩

/-- A run that ends with an unaligned cursor, and one that ends aligned. -/
theorem witness_WriterInvariantsInReachableStates :
    (∃ t, Sys2Proof.core.run 1 { launch none [] [] with inputs := [.command 0x2105000000000000001D] } = .next t ∧
      0 < t.wcur.toNat % 8) ∧
    (∃ t, Sys2Proof.core.run 1 { launch none [] [] with inputs := [.command 0x210800000000000000FF] } = .next t ∧
      t.wcur.toNat % 8 = 0) :=
  ⟨⟨_, rfl, by decide⟩, ⟨_, rfl, by decide⟩⟩

/-- Every command completes in a state with a writer and a bound reader: for the statements about every command that
answers a next state. -/
theorem witness_everyCommandCompletes :
    [Instr.wnew, .wrb true, .wr8 0xFF 8, .wr16 0xFF 8, .wr32 0xFF 8, .wr64 0xFF 8, .wbytes, .rnewX, .rnewW, .rdb, .rd8 6,
      .rd16 6, .rd32 6, .rd64 6, .rskip 3, .srdb, .srd8 6, .srd16 6, .srd32 6, .srd64 6, .sskip 3, .serrq].all
        (fun i => completes (exec i (readerAt scenarioC 10))) = true := by decide

theorem witness_CommandsTouchOnlyTheirState : ∃ t, exec .srdb (readerAt scenarioC 10) = .next t := ⟨_, rfl⟩

theorem witness_HalvesDoNotInterfere :
    (∃ t, exec (.wr8 0xFF 8) (writerAt [0x7F] 7) = .next t) ∧
    (writerAt [0x7F] 7).sameWriter { writerAt [0x7F] 7 with rbound := true } ∧
    (∃ t, exec .serrq (readerAt scenarioC 10) = .next t) ∧
    (readerAt scenarioC 10).sameReader { readerAt scenarioC 10 with wcur := 1, wlen := 1, wbuf := [(0, 1)] } :=
  ⟨⟨_, rfl⟩, ⟨rfl, rfl, rfl⟩, ⟨_, rfl⟩, ⟨rfl, ⟨rfl, rfl, rfl⟩, rfl⟩⟩

theorem witness_CursorsNeverMoveBackward : ∃ t, exec (.rd8 6) (readerAt scenarioC 10) = .next t := ⟨_, rfl⟩

theorem witness_OnlyCreateBindsTheReader : ∃ t, exec .rnewX State.reset = .next t := ⟨_, rfl⟩

/-- Each kind in a response and in the latch. -/
theorem witness_ErrorKindsByCommand :
    (∃ t, exec (.rd8 9) (readerAt scenarioC 10) = .next t ∧
      (readerAt scenarioC 10).answered t (some .bitCountTooBig) 0) ∧
    (∃ t, exec (.rd8 7) (readerAt scenarioC 10) = .next t ∧
      (readerAt scenarioC 10).answered t (some .unexpectedEndOfData) 0) ∧
    (∃ t, exec (.srd8 9) (readerAt scenarioC 10) = .next t ∧ t.serr = some .bitCountTooBig) ∧
    (∃ t, exec (.srd8 7) (readerAt scenarioC 10) = .next t ∧ t.serr = some .unexpectedEndOfData) :=
  ⟨⟨_, rfl, rfl⟩, ⟨_, rfl, rfl⟩, ⟨_, rfl, rfl⟩, ⟨_, rfl, rfl⟩⟩

/-- The states of the stops: a full cursor at `2^64 - 8`, a buffer at its capacity of 2 bytes, no reader, a reader. -/
theorem witness_CommandsStopExactlyWhereListed :
    State.reset.Inv ∧ State.reset.rbound = false ∧
    (writerAt (List.replicate (2 ^ 61 - 1) 0) (8 * (2 ^ 61 - 1))).Inv ∧
    (writerAt (List.replicate (2 ^ 61 - 1) 0) (8 * (2 ^ 61 - 1))).wcur.toNat + 8 = 2 ^ 64 ∧
    ({ writerAt [0xFF, 0xFF] 16 with wcap := some 2 } : State).Inv ∧ 2 < (16 + 1 + 7) / 8 ∧
    ({ writerAt [0xFF, 0x7F] 15 with wcap := some 2 } : State).Inv ∧ (15 + 1 + 7) / 8 ≤ 2 ∧
    (readerAt scenarioC 10).Inv ∧ (readerAt scenarioC 10).rbound = true ∧
    (readerAt scenarioC 10).rcur.toNat + (2 ^ 64 - 10) = 2 ^ 64 ∧
    (readerAt scenarioC 10).rcur.toNat + (2 ^ 64 - 11) < 2 ^ 64 :=
  ⟨⟨by decide, by decide, by decide, by decide, by decide, by decide, by decide, by decide⟩, rfl,
    inv_writerAt_zeros _ (by decide), by decide,
    ⟨by decide, by decide, by decide, by decide, by decide, by decide, by decide, by decide⟩, by decide,
    ⟨by decide, by decide, by decide, by decide, by decide, by decide, by decide, by decide⟩, by decide,
    inv_readerAt none, rfl, by decide, by decide⟩

/-- The limits of the count: 0 and the whole container. -/
theorem witness_MaskHasLowBitsSet : (0 ≤ 8) ∧ (64 ≤ 64) := by decide

theorem witness_TruncKeepsLowBits : (0 ≤ 8 ∧ 8 ≤ 64) ∧ (64 ≤ 64 ∧ 64 = 64) := by decide

/-- The longest split, an aligned one, and one of no bits. -/
theorem witness_SplitClosedForm :
    ((0xFFFFFFFFFFFFFFFF : Word64).toNat < 2 ^ 64 ∧ 64 ≤ 64 ∧ 7 ≤ 7 ∧ 7 < (64 - 1 + 7) / 8) ∧
    ((0xFF : Word64).toNat < 2 ^ 8 ∧ (split 0xFF 8 0).1 = none ∧ (split 0xFF 8 0).2.getLast? = some 0xFF) ∧
    ((0 : Word64).toNat < 2 ^ 0 ∧ (split 0 0 3).1 = some 0) := by decide

theorem witness_GatherClosedForm :
    (7 ≤ 7 ∧ 1 ≤ 64 ∧ (7 + 64 + 7) / 8 ≤ (List.replicate 9 (0xFF : Byte)).length) ∧
    (0 ≤ 7 ∧ 1 ≤ 1 ∧ (0 + 1 + 7) / 8 ≤ [(0xFF : Byte)].length) := by decide

theorem witness_GatherAfterSplitIsIdentity :
    1 ≤ 64 ∧ (0xFFFFFFFFFFFFFFFF : Word64).toNat < 2 ^ 64 ∧ 7 ≤ 7 ∧ ∀ j, 7 ≤ j → (0x7F : Byte).getLsbD j = false := by
  refine ⟨by decide, by decide, by decide, fun j hj => ?_⟩
  by_cases h : j = 7
  · subst h; decide
  · exact BitVec.getLsbD_of_ge _ _ (by omega)

/-- The widest write at the worst offset, a write that fills the last byte of a capacity, and the last write a cursor
allows. -/
theorem witness_WritePostState :
    ((writerAt [0x7F] 7).Inv ∧ writeForm (.wr64 0xFFFFFFFFFFFFFFFF 64) = some ⟨64, 0xFFFFFFFFFFFFFFFF, 64⟩ ∧
      (writerAt [0x7F] 7).wcur.toNat + 64 < 2 ^ 64 ∧ fits (writerAt [0x7F] 7).wcap (bytesFor (7 + 64)) = true) ∧
    (({ writerAt [0xFF, 0x7F] 15 with wcap := some 2 } : State).Inv ∧
      writeForm (.wrb true) = some ⟨8, (BitVec.ofBool true).setWidth 8, 1⟩ ∧ fits (some 2) (bytesFor (15 + 1)) = true) ∧
    ((writerAt (List.replicate (2 ^ 61 - 1) 0) (8 * (2 ^ 61 - 1))).Inv ∧ writeForm (.wr8 0 7) = some ⟨8, 0, 7⟩ ∧
      (writerAt (List.replicate (2 ^ 61 - 1) 0) (8 * (2 ^ 61 - 1))).wcur.toNat + 7 < 2 ^ 64) :=
  ⟨⟨inv_writerAt_unaligned, rfl, by decide, by decide⟩,
    ⟨⟨by decide, by decide, by decide, by decide, by decide, by decide, by decide, by decide⟩, rfl, by decide⟩,
    ⟨inv_writerAt_zeros _ (by decide), rfl, by decide⟩⟩

theorem witness_WriteFrame :
    (writerAt [0x7F] 7).Inv ∧ writeForm (.wr16 0xFFFF 16) = some ⟨16, 0xFFFF, 16⟩ ∧
    (∃ t, exec (.wr16 0xFFFF 16) (writerAt [0x7F] 7) = .next t) ∧
    (∃ t, exec (.wr16 0xFFFF 0) (writerAt [0x7F] 7) = .next t) :=
  ⟨inv_writerAt_unaligned, rfl, ⟨_, rfl⟩, ⟨_, rfl⟩⟩

theorem witness_WritesRefused :
    (writeForm (.wr8 0 9) = some ⟨8, 0, 9⟩ ∧ 8 < 9) ∧
    (writeForm (.wr8 0 8) = some ⟨8, 0, 8⟩ ∧
      2 ^ 64 ≤ (writerAt (List.replicate (2 ^ 61 - 1) 0) (8 * (2 ^ 61 - 1))).wcur.toNat + 8) :=
  ⟨⟨rfl, by decide⟩, ⟨rfl, by decide⟩⟩

theorem witness_WriteStuckAtCapacity :
    (writeForm (.wrb false) = some ⟨8, (BitVec.ofBool false).setWidth 8, 1⟩ ∧
      ({ writerAt [0xFF, 0xFF] 16 with wcap := some 2 } : State).wcap = some 2 ∧ 1 ≤ 8 ∧ 2 < (16 + 1 + 7) / 8) ∧
    State.reset.wcap = none := ⟨⟨rfl, rfl, by decide, by decide⟩, rfl⟩

theorem witness_ZeroWidthWriteChangesNothing : State.reset.Inv ∧ (writerAt [0x7F] 7).Inv :=
  ⟨⟨by decide, by decide, by decide, by decide, by decide, by decide, by decide, by decide⟩, inv_writerAt_unaligned⟩

theorem witness_WbytesExposesTheBytes : (writerAt [0xDD, 0x78, 0x15] 21).Inv := inv_writerAt

/-- Rows 2 to 4 of program P3 (95_test_vectors.md section 3): the last byte changes from `7F` to `FF`. -/
theorem witness_ExposedBytesAreStable :
    (writerAt [0x7F] 7).Inv ∧ Instr.wnew ∉ [Instr.wr64 0x0123456789ABCDEF 64] ∧
    ∃ s₁ s₂ t, exec .wbytes (writerAt [0x7F] 7) = .next s₁ ∧
      s₁.outputs = (writerAt [0x7F] 7).outputs ++ [⟨⟨none, 1⟩, some [0x7F]⟩] ∧
      runCommands [.wr64 0x0123456789ABCDEF 64] s₁ = .next s₂ ∧ exec .wbytes s₂ = .next t ∧
      t.outputs = s₂.outputs ++
        [⟨⟨none, 9⟩, some [0xFF, 0xF7, 0xE6, 0xD5, 0xC4, 0xB3, 0xA2, 0x91, 0x00]⟩] :=
  ⟨inv_writerAt_unaligned, by decide, _, _, _, rfl, rfl, rfl, rfl, rfl⟩

theorem witness_SizeLaw :
    (writerAt [0x7F] 7).Inv ∧
    [Instr.wr8 0x1D 5, .wr16 0xABC 12].map writeForm = [⟨8, 0x1D, 5⟩, (⟨16, 0xABC, 12⟩ : WriteForm)].map some ∧
    ∃ t, runCommands [.wnew, .wr8 0x1D 5, .wr16 0xABC 12] (writerAt [0x7F] 7) = .next t :=
  ⟨inv_writerAt_unaligned, rfl, _, rfl⟩

theorem witness_WritesAfterBindAreNotSeen :
    (∀ i ∈ [Instr.wnew, .wrb true, .wbytes], i = .wnew ∨ i = .wbytes ∨ (writeForm i).isSome) ∧
    ∃ t, runCommands [.wnew, .wrb true, .wbytes] (readerAt scenarioC 10) = .next t := ⟨by decide, _, rfl⟩

theorem witness_UnboundReaderRefuses :
    State.reset.rbound = false ∧ (directForm .rdb).isSome ∧ (stickyForm .srdb).isSome := ⟨rfl, rfl, rfl⟩

/-- One count for each of the four cases, at the limit: too big, zero, one bit too many, the last bits. -/
theorem witness_DirectReadOutcomes :
    (readerAt scenarioC 10).Inv ∧ (readerAt scenarioC 10).rbound = true ∧
    (directForm (.rd8 9) = some (8, 9) ∧ 8 < 9) ∧ directForm (.rd8 0) = some (8, 0) ∧
    (directForm (.rd8 7) = some (8, 7) ∧ 8 * 2 < 10 + 7) ∧
    (directForm (.rd8 6) = some (8, 6) ∧ ¬ 8 * 2 < 10 + 6) :=
  ⟨inv_readerAt none, rfl, ⟨rfl, by decide⟩, rfl, ⟨rfl, by decide⟩, ⟨rfl, by decide⟩⟩

theorem witness_FailedDirectReadLeavesNoTrace :
    (readerAt scenarioC 10).Inv ∧ (directForm (.rd8 7)).isSome ∧
    (∃ t, exec (.rd8 7) (readerAt scenarioC 10) = .next t ∧
      (readerAt scenarioC 10).answered t (some .unexpectedEndOfData) 0) ∧
    (directForm (.rd8 6) = some (8, 6) ∧ 6 ≤ 8 ∧ (readerAt scenarioC 10).rcur.toNat + 6 ≤ 8 * 2) :=
  ⟨inv_readerAt none, rfl, ⟨_, rfl, rfl⟩, ⟨rfl, by decide, by decide⟩⟩

/-- A read of the last bit a source can have, in a state that keeps the invariant; and one past it, in a state that no run
reaches. -/
theorem witness_ReadsDoNotOverflowTheCursor :
    (directForm .rdb = some (8, 1) ∧ stickyForm .srdb = some (8, 1) ∧
      (readerAt (List.replicate (2 ^ 61 - 1) 0) (2 ^ 64 - 9)).Inv) ∧
    ((readerAt (List.replicate (2 ^ 61) 0) (2 ^ 64 - 1)).rsrc.holds
        (readerAt (List.replicate (2 ^ 61) 0) (2 ^ 64 - 1)).rlen ∧
      (readerAt (List.replicate (2 ^ 61) 0) (2 ^ 64 - 1)).rbound = true ∧
      (readerAt (List.replicate (2 ^ 61) 0) (2 ^ 64 - 1)).serr = none ∧
      (readerAt (List.replicate (2 ^ 61) 0) (2 ^ 64 - 1)).rlen = 2 ^ 61 ∧
      (readerAt (List.replicate (2 ^ 61) 0) (2 ^ 64 - 1)).rcur.toNat + 1 = 2 ^ 64) ∧
    (∃ t, exec .rdb (readerAt scenarioC 10) = .next t ∧ (readerAt scenarioC 10).Inv) :=
  ⟨⟨rfl, rfl, inv_readerAt_zeros _ _ (by decide)⟩,
    ⟨Memory.holds_ofBytes _, rfl, rfl, List.length_replicate, by decide⟩, ⟨_, rfl, inv_readerAt none⟩⟩

/-- A source and a buffer whose length `RLEN` holds, and a buffer of `2^61` bytes. -/
theorem witness_RnewBindsItsBytes :
    ({ State.reset with xsrc := [0xA7, 0x5C, 0xE1] } : State).xsrc.length < 2 ^ 61 ∧
    (writerAt [0x6B, 0x4D] 15).wlen < 2 ^ 61 ∧ (writerAt [0x6B, 0x4D] 15).wbuf.holds (writerAt [0x6B, 0x4D] 15).wlen ∧
    (writerAt (List.replicate (2 ^ 61) 0) (2 ^ 64 - 1)).wbuf.holds (writerAt (List.replicate (2 ^ 61) 0) (2 ^ 64 - 1)).wlen :=
  ⟨by decide, by decide, by decide, Memory.holds_ofBytes _⟩

theorem witness_SkipAdvancesTheCursor :
    (readerAt scenarioC 0).rbound = true ∧ (readerAt scenarioC 0).rcur.toNat + (2 ^ 64 - 1) < 2 ^ 64 ∧
    2 ^ 64 ≤ (readerAt scenarioC 1).rcur.toNat + (2 ^ 64 - 1) := ⟨rfl, by decide, by decide⟩

/-- One state and count for each of the five cases. -/
theorem witness_StickyReadOutcomes :
    ((readerAt scenarioC 10 (some .bitCountTooBig)).Inv ∧
      (readerAt scenarioC 10 (some .bitCountTooBig)).serr ≠ none) ∧
    (readerAt scenarioC 10).Inv ∧ (readerAt scenarioC 10).rbound = true ∧
    (readerAt scenarioC 10).serr = none ∧ stickyForm (.srd8 9) = some (8, 9) ∧ stickyForm (.srd8 0) = some (8, 0) ∧
    stickyForm (.srd8 7) = some (8, 7) ∧ stickyForm (.srd8 6) = some (8, 6) :=
  ⟨⟨inv_readerAt _, by decide⟩, inv_readerAt none, rfl, rfl, rfl, rfl, rfl, rfl⟩

theorem witness_StickyAgreesWithDirectWhileOk :
    directForm (.rd8 6) = some (8, 6) ∧ stickyForm (.srd8 6) = some (8, 6) ∧ (readerAt scenarioC 10).serr = none ∧
    ∃ t, exec (.rd8 6) (readerAt scenarioC 10) = .next t ∧ (readerAt scenarioC 10).answered t none 0x13 :=
  ⟨rfl, rfl, rfl, _, rfl, rfl⟩

/-- Rows 5 to 8 of program P2 (95_test_vectors.md section 3), and sticky reads alone. -/
theorem witness_StickyFreeze :
    (∀ i ∈ [Instr.srd8 9, .srdb, .serrq, .sskip 8], createsReader i = false) ∧
    (∃ t, runCommands [.srd8 9, .srdb, .serrq, .sskip 8]
      (readerAt [0xA7, 0x5C, 0xE1] 16 (some .unexpectedEndOfData)) = .next t ∧ t.rbound = true ∧
        t.rcur.toNat + 8 < 2 ^ 64) ∧
    (readerAt [0xA7, 0x5C, 0xE1] 16 (some .unexpectedEndOfData)).serr = some .unexpectedEndOfData ∧
    (∀ i ∈ [Instr.srd8 9, .srdb, .serrq], (stickyForm i).isSome ∨ i = .serrq) ∧
    (∃ t, runCommands [.srd8 9, .srdb, .serrq] (readerAt [0xA7, 0x5C, 0xE1] 16 (some .unexpectedEndOfData)) = .next t) :=
  ⟨by decide, ⟨_, rfl, rfl, by decide⟩, rfl, by decide, ⟨_, rfl⟩⟩

theorem witness_SerrqReportsTheLatch :
    State.reset.rbound = false ∧ ((readerAt scenarioC 10).rbound = true ∧ (readerAt scenarioC 10).serr = none) ∧
    (readerAt scenarioC 10 (some .bitCountTooBig)).serr = some .bitCountTooBig ∧
    (readerAt scenarioC 10 (some .unexpectedEndOfData)).serr = some .unexpectedEndOfData :=
  ⟨rfl, ⟨rfl, rfl⟩, rfl, rfl⟩

/-- The writes of Scenario A, and reads of the same counts in other containers. -/
theorem witness_DirectRoundTrip :
    (writerAt [0x7F] 7).Inv ∧
    [Instr.wr8 0x1D 5, .wr8 0x06 4, .wr16 0xABC 12].map writeForm =
      [⟨8, 0x1D, 5⟩, ⟨8, 0x06, 4⟩, (⟨16, 0xABC, 12⟩ : WriteForm)].map some ∧
    (∀ f ∈ [⟨8, 0x1D, 5⟩, ⟨8, 0x06, 4⟩, (⟨16, 0xABC, 12⟩ : WriteForm)], f.count ≤ f.width) ∧
    [Instr.rd8 5, .rd64 4, .rd16 12].map directForm =
      (List.zipWith (fun (f : WriteForm) W => (W, f.count))
        [⟨8, 0x1D, 5⟩, ⟨8, 0x06, 4⟩, ⟨16, 0xABC, 12⟩] [8, 64, 16]).map some ∧
    (∀ p ∈ [⟨8, 0x1D, 5⟩, ⟨8, 0x06, 4⟩, (⟨16, 0xABC, 12⟩ : WriteForm)].zip [8, 64, 16], p.1.count ≤ p.2) ∧
    ([⟨8, 0x1D, 5⟩, ⟨8, 0x06, 4⟩, (⟨16, 0xABC, 12⟩ : WriteForm)].map (fun f => f.count)).sum ≤ 2 ^ 64 - 8 ∧
    fits (writerAt [0x7F] 7).wcap (bytesFor 21) = true := by
  refine ⟨inv_writerAt_unaligned, rfl, ?_, rfl, ?_, by decide, rfl⟩ <;> simp

theorem witness_StickyRoundTrip :
    [Instr.srd8 5, .srd64 4, .srd16 12].map stickyForm =
      (List.zipWith (fun (f : WriteForm) W => (W, f.count))
        [⟨8, 0x1D, 5⟩, ⟨8, 0x06, 4⟩, ⟨16, 0xABC, 12⟩] [8, 64, 16]).map some ∧
    (writerAt [0x7F] 7).Inv ∧
    [Instr.wr8 0x1D 5, .wr8 0x06 4, .wr16 0xABC 12].map writeForm =
      [⟨8, 0x1D, 5⟩, ⟨8, 0x06, 4⟩, (⟨16, 0xABC, 12⟩ : WriteForm)].map some ∧
    (∀ f ∈ [⟨8, 0x1D, 5⟩, ⟨8, 0x06, 4⟩, (⟨16, 0xABC, 12⟩ : WriteForm)], f.count ≤ f.width) ∧
    (∀ p ∈ [⟨8, 0x1D, 5⟩, ⟨8, 0x06, 4⟩, (⟨16, 0xABC, 12⟩ : WriteForm)].zip [8, 64, 16], p.1.count ≤ p.2) ∧
    fits (writerAt [0x7F] 7).wcap (bytesFor 21) = true := by
  refine ⟨rfl, inv_writerAt_unaligned, rfl, ?_, ?_, rfl⟩ <;> simp

end Sys2Proof.Tests
end

section
/-! What the decoder makes of an encoded command: which operands come back from their fields, and from that
`decode_encode` (spec/30_encoding.md R83). -/

namespace Sys2Proof

/-- A count in range survives `BC` (R70). -/
theorem toNat_ofNat_of_bitCountInRange {n : Nat} (h : bitCountInRange n = true) : (BitVec.ofNat 8 n).toNat = n := by
  rw [BitVec.toNat_ofNat, Nat.mod_eq_of_lt (of_decide_eq_true h)]

/-- A skip amount in range survives `VAL` (R72). -/
theorem toNat_ofNat_of_skipInRange {k : Nat} (h : skipInRange k = true) : (BitVec.ofNat 64 k).toNat = k := by
  rw [BitVec.toNat_ofNat, Nat.mod_eq_of_lt (of_decide_eq_true h)]

/-- `VAL` holding a value of `W` bits has no bit from `W` up, so its test accepts the command (R71). -/
theorem decodeValue_setWidth {W : Nat} (hW : W ≤ 64) (op sub : BitVec 4) (bc : BitVec 8) (v : BitVec W) (i : Instr) :
    decodeValue ⟨op, sub, bc, v.setWidth 64⟩ W i = .command i := by
  have noHighBits : v.setWidth 64 >>> W = 0 := by
    rw [ushiftRight_eq_zero_iff, BitVec.toNat_setWidth_of_le hW]
    exact v.isLt
  simp [decodeValue, noHighBits]

/-- The decoder undoes the encoder on the fields of a word: the operands are a value (R71), a count (R70) or a skip
amount (R72), and each comes back from its field. -/
theorem decodeFields_encodeFields {i : Instr} (h : i.wellFormed = true) : decodeFields (encodeFields i) = .command i := by
  cases i with
  | wnew | wbytes | rnewX | rnewW | rdb | srdb | serrq => rfl
  | wrb b => cases b <;> rfl
  | wr8 v n | wr16 v n | wr32 v n =>
    have count := toNat_ofNat_of_bitCountInRange h
    simp [encodeFields, decodeFields, decodeWrite, decodeValue_setWidth, count]
  | wr64 v n =>
    have count := toNat_ofNat_of_bitCountInRange h
    simp [encodeFields, decodeFields, decodeWrite, count]
  | rd8 n | rd16 n | rd32 n | rd64 n =>
    have count := toNat_ofNat_of_bitCountInRange h
    simp [encodeFields, decodeFields, decodeRead, decodeCount, count]
  | srd8 n | srd16 n | srd32 n | srd64 n =>
    have count := toNat_ofNat_of_bitCountInRange h
    simp [encodeFields, decodeFields, decodeStickyRead, decodeCount, count]
  | rskip k | sskip k =>
    have amount := toNat_ofNat_of_skipInRange h
    simp [encodeFields, decodeFields, decodeSkip, amount]

/-- `Decode(Encode(c)) = c` for operands in range (R83). -/
theorem decode_encode {i : Instr} (h : i.wellFormed = true) : decode (encode i) = .command i := by
  rw [decode, encode, fieldsOf_wordOf, decodeFields_encodeFields h]

end Sys2Proof
end

section
/-! What a step does with a command word on the port (spec/00_scope.md R14, 10_state.md R21). -/

namespace Sys2Proof.Machine

/-- A word that decodes leaves the port, and its command is executed. -/
theorem step_of_decode {s : State} {w : CommandWord} {rest : List HostInput} {i : Instr}
    (hport : s.inputs = .command w :: rest) (hdecode : decode w = .command i) :
    step s = exec i { s with inputs := rest } := by
  simp only [step, hport, hdecode]

/-- Settles O5: `step` on a decoded word, and `decode_encode` for the word of a well-formed command. -/
theorem stepExecutesTheDecodedCommand : Obligations.StepExecutesTheDecodedCommand :=
  ⟨fun _ _ _ _ hport hdecode => step_of_decode hport hdecode,
    fun _ _ _ hport hwf => step_of_decode hport (decode_encode hwf)⟩

end Sys2Proof.Machine
end

section
/-! What a command that completes can do, said once for all 22 (spec/10_state.md R34): the commands of the writer leave
the reader's half alone, reads, skips and `SERRQ` leave the writer's half and the source alone, and `RNEW.X`, `RNEW.W` are
one bind. From it who may write which state, and which way the cursors and `RBOUND` move. -/

namespace Sys2Proof.Machine

/-! ### The two halves' commands -/

/-- The commands of the writer's half: `WNEW`, `WBYTES` and the five writes. -/
abbrev WriterCommand (i : Instr) : Prop := i = .wnew ∨ i = .wbytes ∨ (writeForm i).isSome

/-- The commands that use a reader already created: direct and sticky reads, `SERRQ` and the two skips. -/
abbrev ReaderCommand (i : Instr) : Prop :=
  (directForm i).isSome ∨ (stickyForm i).isSome ∨ i = .serrq ∨ ∃ k, i = .rskip k ∨ i = .sskip k

theorem writerCommand_or_readerCommand_or_creates (i : Instr) :
    WriterCommand i ∨ ReaderCommand i ∨ i = .rnewX ∨ i = .rnewW := by
  cases i <;> simp [WriterCommand, ReaderCommand, writeForm, directForm, stickyForm]

theorem createsReader_of_writerCommand {i : Instr} (h : WriterCommand i) : createsReader i = false := by
  cases i <;> simp [WriterCommand, writeForm, createsReader] at h ⊢

theorem createsReader_of_readerCommand {i : Instr} (h : ReaderCommand i) : createsReader i = false := by
  cases i <;> simp [ReaderCommand, directForm, stickyForm, createsReader] at h ⊢

theorem directForm_of_stickyForm {i : Instr} {W n : Nat} (h : stickyForm i = some (W, n)) : directForm i = none := by
  cases i <;> simp [stickyForm, directForm] at h ⊢

/-! ### What a command of each half leaves unchanged -/

/-- What a command of the writer's half leaves: the reader, the host's side and the free values; it answers once. -/
structure State.WriterFrame (s t : State) : Prop where
  reader : s.sameReader t
  host : s.sameHost t
  answer : ∃ o, t.outputs = s.outputs ++ [o]
  draws : t.freeDraws = s.freeDraws

/-- What a command of the reader's half leaves: the writer, the source, the host's side and the free values. It completes
only on a bound reader, answers once and never moves the cursor backward. -/
structure State.ReaderFrame (s t : State) : Prop where
  bound : s.rbound = true
  writer : s.sameWriter t
  source : s.sameSource t
  host : s.sameHost t
  answer : ∃ o, t.outputs = s.outputs ++ [o]
  draws : t.freeDraws = s.freeDraws
  rcur_le : s.rcur.toNat ≤ t.rcur.toNat

theorem State.writerFrame_wnew (s : State) :
    s.WriterFrame ({ s with wcur := 0, wlen := 0, wbuf := [] }.respond none 0) :=
  ⟨⟨rfl, ⟨rfl, rfl, rfl⟩, rfl⟩, ⟨rfl, rfl, rfl⟩, ⟨_, rfl⟩, rfl⟩

theorem State.writerFrame_respondBytes (s : State) (data : Word64) (bytes : List Byte) :
    s.WriterFrame (s.respondBytes data bytes) :=
  ⟨⟨rfl, ⟨rfl, rfl, rfl⟩, rfl⟩, ⟨rfl, rfl, rfl⟩, ⟨_, rfl⟩, rfl⟩

theorem writeBits_writerFrame {W : Nat} {value : BitVec W} {n : Nat} {s t : State}
    (h : writeBits W value n s = .next t) : s.WriterFrame t := by
  obtain ⟨reader, host, answer, -⟩ := writeBits_frame h
  exact ⟨reader, host, ⟨_, answer⟩, writeBits_freeDraws h⟩

theorem State.readerFrame_respond {s : State} (bound : s.rbound = true) (status : Option ErrorKind) (data : Word64) :
    s.ReaderFrame (s.respond status data) :=
  ⟨bound, ⟨rfl, rfl, rfl⟩, ⟨rfl, rfl, rfl⟩, ⟨rfl, rfl, rfl⟩, ⟨_, rfl⟩, rfl, Nat.le_refl _⟩

theorem State.readerFrame_raiseSticky {s : State} (bound : s.rbound = true) (e : ErrorKind) :
    s.ReaderFrame (s.raiseSticky e) :=
  ⟨bound, ⟨rfl, rfl, rfl⟩, ⟨rfl, rfl, rfl⟩, ⟨rfl, rfl, rfl⟩, ⟨_, rfl⟩, rfl, Nat.le_refl _⟩

theorem State.readerFrame_advanceReader {s : State} {n : Nat} (bound : s.rbound = true) (room : s.readerCanAdvance n)
    (status : Option ErrorKind) (data : Word64) : s.ReaderFrame ((s.advanceReader n).respond status data) :=
  ⟨bound, ⟨rfl, rfl, rfl⟩, ⟨rfl, rfl, rfl⟩, ⟨rfl, rfl, rfl⟩, ⟨_, rfl⟩, rfl, by
    rw [State.respond_rcur, State.advanceReader_toNat room]
    exact Nat.le_add_right _ _⟩

/-- A direct read moves the cursor by its count or leaves it, and leaves the latch in both cases. -/
theorem directRead_readerFrame {W n : Nat} {s t : State} (h : directRead W n s = .next t) :
    s.ReaderFrame t ∧ t.serr = s.serr := by
  obtain ⟨bound, ⟨v, value, rfl⟩ | ⟨e, -, rfl⟩⟩ := directRead_cases h
  · exact ⟨State.readerFrame_advanceReader bound (readBits_value_advance value) _ _, rfl⟩
  · exact ⟨State.readerFrame_respond bound _ _, rfl⟩

theorem stickyRead_readerFrame {W n : Nat} {s t : State} (h : stickyRead W n s = .next t) : s.ReaderFrame t := by
  obtain ⟨bound, ⟨e, -, rfl⟩ | ⟨-, ⟨v, value, rfl⟩ | ⟨e, -, rfl⟩⟩⟩ := stickyRead_cases h
  · exact State.readerFrame_respond bound _ _
  · exact State.readerFrame_advanceReader bound (readBits_value_advance value) _ _
  · exact State.readerFrame_raiseSticky bound e

theorem skipBits_readerFrame {k : Nat} {s t : State} (h : skipBits k s = .next t) :
    s.ReaderFrame t ∧ t.serr = s.serr := by
  obtain ⟨bound, room, rfl⟩ := skipBits_cases h
  exact ⟨State.readerFrame_advanceReader bound room _ _, rfl⟩

theorem execSerrq_readerFrame {s t : State} (h : execSerrq s = .next t) :
    s.ReaderFrame t ∧ s.sameReader t := by
  obtain ⟨bound, rfl⟩ := execSerrq_cases h
  exact ⟨State.readerFrame_respond bound _ _, rfl, ⟨rfl, rfl, rfl⟩, rfl⟩

/-! ### Every command -/

variable {i : Instr} {s t : State}

theorem exec_writerFrame (hi : WriterCommand i) (h : exec i s = .next t) : s.WriterFrame t := by
  obtain rfl | rfl | isWrite := hi
  · cases h; exact s.writerFrame_wnew
  · cases h; exact s.writerFrame_respondBytes _ _
  · obtain ⟨f, form⟩ := Option.isSome_iff_exists.mp isWrite
    rw [exec_of_writeForm form] at h
    exact writeBits_writerFrame h

theorem exec_readerFrame (hi : ReaderCommand i) (h : exec i s = .next t) : s.ReaderFrame t := by
  obtain isDirect | isSticky | rfl | ⟨k, isSkip⟩ := hi
  · obtain ⟨⟨W, n⟩, form⟩ := Option.isSome_iff_exists.mp isDirect
    rw [exec_of_directForm form] at h
    exact (directRead_readerFrame h).1
  · obtain ⟨⟨W, n⟩, form⟩ := Option.isSome_iff_exists.mp isSticky
    rw [exec_of_stickyForm form] at h
    exact stickyRead_readerFrame h
  · exact (execSerrq_readerFrame h).1
  · rw [exec_of_skip isSkip] at h
    exact (skipBits_readerFrame h).1

/-- `RNEW.X` and `RNEW.W` are one bind, of a memory that holds exactly the bytes below its length where `WBUF` does. -/
theorem exec_creates (hi : i = .rnewX ∨ i = .rnewW) (h : exec i s = .next t) :
    ∃ source len, t = (s.bindReader source len).respond none 0 ∧ (s.wbuf.holds s.wlen → source.holds len) := by
  obtain rfl | rfl := hi
  · cases h; exact ⟨_, _, rfl, fun _ => Memory.holds_ofBytes _⟩
  · cases h; exact ⟨_, _, rfl, id⟩

/-- Everything a command that completes can do (10_state.md R34). -/
theorem exec_cases (h : exec i s = .next t) :
    (WriterCommand i ∧ createsReader i = false ∧ s.WriterFrame t) ∨
    (ReaderCommand i ∧ createsReader i = false ∧ s.ReaderFrame t) ∨
    (createsReader i = true ∧ ∃ source len, t = (s.bindReader source len).respond none 0 ∧
      (s.wbuf.holds s.wlen → source.holds len)) := by
  obtain hi | hi | hi := writerCommand_or_readerCommand_or_creates i
  · exact .inl ⟨hi, createsReader_of_writerCommand hi, exec_writerFrame hi h⟩
  · exact .inr (.inl ⟨hi, createsReader_of_readerCommand hi, exec_readerFrame hi h⟩)
  · exact .inr (.inr ⟨by obtain rfl | rfl := hi <;> rfl, exec_creates hi h⟩)

/-- Every command leaves the host's side alone and answers once, and only a bind draws a free value. -/
theorem exec_host_answer_draws (h : exec i s = .next t) :
    s.sameHost t ∧ (∃ o, t.outputs = s.outputs ++ [o]) ∧ (createsReader i = false → t.freeDraws = s.freeDraws) := by
  obtain ⟨-, -, frame⟩ | ⟨-, -, frame⟩ | ⟨creates, source, len, rfl, -⟩ := exec_cases h
  · exact ⟨frame.host, frame.answer, fun _ => frame.draws⟩
  · exact ⟨frame.host, frame.answer, fun _ => frame.draws⟩
  · exact ⟨⟨rfl, rfl, rfl⟩, ⟨_, rfl⟩, fun no => by simp [creates] at no⟩

/-- Direct reads leave the writer, the source and the latch (42_reader.md R143). -/
theorem exec_direct_unchanged {W n : Nat} (form : directForm i = some (W, n)) (h : exec i s = .next t) :
    s.sameWriter t ∧ s.sameSource t ∧ t.serr = s.serr := by
  rw [exec_of_directForm form] at h
  obtain ⟨frame, latch⟩ := directRead_readerFrame h
  exact ⟨frame.writer, frame.source, latch⟩

theorem exec_skip_unchanged {k : Nat} (isSkip : i = .rskip k ∨ i = .sskip k) (h : exec i s = .next t) :
    s.sameWriter t ∧ s.sameSource t ∧ t.serr = s.serr := by
  rw [exec_of_skip isSkip] at h
  obtain ⟨frame, latch⟩ := skipBits_readerFrame h
  exact ⟨frame.writer, frame.source, latch⟩

theorem exec_sticky_unchanged {W n : Nat} (form : stickyForm i = some (W, n)) (h : exec i s = .next t) :
    s.sameWriter t ∧ s.sameSource t := by
  rw [exec_of_stickyForm form] at h
  exact ⟨(stickyRead_readerFrame h).writer, (stickyRead_readerFrame h).source⟩

theorem exec_creates_sameWriter (hi : i = .rnewX ∨ i = .rnewW) (h : exec i s = .next t) : s.sameWriter t := by
  obtain ⟨source, len, rfl, -⟩ := exec_creates hi h
  exact ⟨rfl, rfl, rfl⟩

/-- Settles O15: the frames of the shared operations, row by row of the table of R34. -/
theorem commandsTouchOnlyTheirState : Obligations.CommandsTouchOnlyTheirState := by
  unfold Obligations.CommandsTouchOnlyTheirState
  intro i s t h
  obtain ⟨host, answer, draws⟩ := exec_host_answer_draws h
  refine ⟨host, answer, draws, ?_⟩
  cases i with
  | wnew => exact (exec_writerFrame (.inl rfl) h).reader
  | wrb | wr8 | wr16 | wr32 | wr64 => exact (exec_writerFrame (.inr (.inr rfl)) h).reader
  | wbytes => cases h; exact ⟨⟨rfl, rfl, rfl⟩, (s.writerFrame_respondBytes _ _).reader⟩
  | serrq => exact ⟨(execSerrq_readerFrame h).1.writer, (execSerrq_readerFrame h).2⟩
  | rnewX => exact exec_creates_sameWriter (.inl rfl) h
  | rnewW => exact exec_creates_sameWriter (.inr rfl) h
  | rdb | rd8 | rd16 | rd32 | rd64 => exact exec_direct_unchanged rfl h
  | rskip => exact exec_skip_unchanged (.inl rfl) h
  | sskip => exact exec_skip_unchanged (.inr rfl) h
  | srdb | srd8 | srd16 | srd32 | srd64 => exact exec_sticky_unchanged rfl h

/-! ### The cursors and `RBOUND` -/

/-- `WBYTES` leaves `WCUR`, and a write adds its count to it. -/
theorem exec_wcur_le (hi : WriterCommand i) (hne : i ≠ .wnew) (h : exec i s = .next t) :
    s.wcur.toNat ≤ t.wcur.toNat := by
  obtain rfl | rfl | isWrite := hi
  · exact absurd rfl hne
  · cases h; exact Nat.le_refl _
  · obtain ⟨f, form⟩ := Option.isSome_iff_exists.mp isWrite
    rw [exec_of_writeForm form] at h
    obtain ⟨-, -, -, -, -, -, advanced⟩ := writeBits_frame h
    exact advanced ▸ Nat.le_add_right _ _

/-- Settles O17: a command moves at most its own half's cursor, and forward; a bind leaves `WCUR`. -/
theorem cursorsNeverMoveBackward : Obligations.CursorsNeverMoveBackward := by
  unfold Obligations.CursorsNeverMoveBackward
  intro i s t h
  obtain ⟨hi, -, frame⟩ | ⟨-, -, frame⟩ | ⟨creates, source, len, rfl, -⟩ := exec_cases h
  · exact ⟨fun hne => exec_wcur_le hi hne h, fun _ => by rw [frame.reader.1]⟩
  · exact ⟨fun _ => by rw [frame.writer.1], fun _ => frame.rcur_le⟩
  · exact ⟨fun _ => Nat.le_refl _, fun no => by simp [creates] at no⟩

/-- Settles O18: only a bind writes `RBOUND`. -/
theorem onlyCreateBindsTheReader : Obligations.OnlyCreateBindsTheReader := by
  unfold Obligations.OnlyCreateBindsTheReader
  intro i s t h
  obtain ⟨-, no, frame⟩ | ⟨-, no, frame⟩ | ⟨creates, source, len, rfl, -⟩ := exec_cases h
  · obtain ⟨-, ⟨-, -, kept⟩, -⟩ := frame.reader
    simp [no, kept]
  · obtain ⟨-, -, kept⟩ := frame.source
    simp [no, kept]
  · simp [creates]

end Sys2Proof.Machine
end

section
/-! The invariant of the block's states, half by half (spec/10_state.md R24 to R29): it holds after reset, and every command
and every step keeps it. -/

namespace Sys2Proof.Machine

variable {s t : State}

/-- The writer's clauses of the invariant. -/
structure State.WriterInv (s : State) : Prop where
  holds : s.wbuf.holds s.wlen
  length : s.wlen = bytesFor s.wcur.toNat
  padding : ∀ p < 8 * s.wlen, s.wcur.toNat ≤ p → s.wbuf.bit p = some false
  capacity : fits s.wcap s.wlen = true

/-- The reader's clauses of the invariant. -/
structure State.ReaderInv (s : State) : Prop where
  holds : s.rsrc.holds s.rlen
  bound : s.rlen < Config.sourceLimit
  pristine : s.rbound = false → s.readerPristine

theorem State.inv_iff : s.Inv ↔ s.WriterInv ∧ s.ReaderInv ∧ s.xsrc.length < Config.sourceLimit :=
  ⟨fun h => ⟨⟨h.wbufHolds, h.length, h.padding, h.capacity⟩, ⟨h.rsrcHolds, h.rlenBound, h.unbound⟩, h.xsrcBound⟩,
    fun ⟨w, r, x⟩ => ⟨w.holds, w.length, w.padding, w.capacity, r.holds, r.bound, r.pristine, x⟩⟩

/-! ### States that meet a half -/

theorem State.WriterInv.of_sameWriter (h : s.WriterInv) (writer : s.sameWriter t) (wcap : t.wcap = s.wcap) :
    t.WriterInv := by
  obtain ⟨wcur, wlen, wbuf⟩ := writer
  exact ⟨by rw [wbuf, wlen]; exact h.holds, by rw [wlen, wcur]; exact h.length,
    by rw [wlen, wcur, wbuf]; exact h.padding, by rw [wcap, wlen]; exact h.capacity⟩

theorem State.ReaderInv.of_sameReader (h : s.ReaderInv) (reader : s.sameReader t) : t.ReaderInv := by
  obtain ⟨rcur, ⟨rlen, rsrc, rbound⟩, serr⟩ := reader
  exact ⟨by rw [rsrc, rlen]; exact h.holds, rlen ▸ h.bound,
    by rw [rbound, State.readerPristine, rcur, rlen, rsrc, serr]; exact h.pristine⟩

/-- Of a reader that is bound, only the source matters. -/
theorem State.ReaderInv.of_sameSource (h : s.ReaderInv) (source : s.sameSource t) (bound : s.rbound = true) :
    t.ReaderInv := by
  obtain ⟨rlen, rsrc, rbound⟩ := source
  exact ⟨by rw [rsrc, rlen]; exact h.holds, rlen ▸ h.bound, fun no => by simp [rbound, bound] at no⟩

theorem Memory.holds_nil : Memory.holds [] 0 := rfl

/-- A freshly created writer meets its half, whatever the capacity. -/
theorem State.writerInv_of_empty (wcur : s.wcur = 0) (wlen : s.wlen = 0) (wbuf : s.wbuf = []) : s.WriterInv where
  holds := by rw [wbuf, wlen]; exact Memory.holds_nil
  length := by simp [wcur, wlen, bytesFor]
  padding := by simp [wlen]
  capacity := by rw [wlen]; cases s.wcap <;> simp [fits]

theorem State.readerInv_of_pristine (h : s.readerPristine) : s.ReaderInv := by
  obtain ⟨rcur, rlen, rsrc, serr⟩ := h
  exact ⟨by rw [rsrc, rlen]; exact Memory.holds_nil, by simp [rlen], fun _ => ⟨rcur, rlen, rsrc, serr⟩⟩

/-- A bind meets the reader's half: the length it binds is always one the register holds. -/
theorem State.readerInv_bindReader (s : State) {source : Memory} {len : Nat} (h : source.holds len) :
    (s.bindReader source len).ReaderInv :=
  ⟨s.holds_bindReader h, s.boundLength_lt len, nofun⟩

/-- A write re-establishes the writer's half: the bits it adds end at the new cursor, and above it are zeros (R119). -/
theorem writeBits_writerInv {W : Nat} {value : BitVec W} {n : Nat} (hI : s.Inv) (hW : W ≤ 64)
    (h : writeBits W value n s = .next t) : t.WriterInv := by
  obtain ⟨-, ⟨wcap, -, -⟩, -, -, -, room, wcur⟩ := writeBits_frame h
  obtain ⟨wlen, holds, -, -, bits⟩ := writeBits_memory hI hW h
  refine ⟨holds, ?length, fun p below above => ?padding, ?capacity⟩
  case length => rw [wlen, wcur, bytesFor_def]
  case padding =>
    have pastCount : ¬ p - s.wcur.toNat < n := by omega
    simp [bits p (by omega) below, pastCount]
  case capacity => rw [wcap, wlen]; exact room

/-! ### The invariant after reset -/

/-- The block at its reset values meets the invariant, whatever the host's side, as long as its sequence is short enough. -/
theorem resetBlock_inv (xsrc : s.xsrc.length < Config.sourceLimit) : (resetBlock s).Inv :=
  State.inv_iff.mpr ⟨State.writerInv_of_empty rfl rfl rfl, State.readerInv_of_pristine ⟨rfl, rfl, rfl, rfl⟩, xsrc⟩

/-- Settles O10: the fields of `State.reset`. -/
theorem resetValues : Obligations.ResetValues :=
  ⟨rfl, rfl, rfl, rfl, rfl, rfl, rfl, rfl⟩

/-- Settles O12: a launch state is a reset block with the host's side set up. -/
theorem invariantHoldsAtReset : Obligations.InvariantHoldsAtReset := by
  unfold Obligations.InvariantHoldsAtReset
  refine ⟨resetBlock_inv (s := State.reset) (by decide), fun capacity source words short => ?_⟩
  exact resetBlock_inv (s := launch capacity source words) short

/-! ### Every command and every step keeps the invariant -/

theorem exec_writerInv {i : Instr} (hI : s.Inv) (hi : WriterCommand i) (h : exec i s = .next t) : t.WriterInv := by
  obtain rfl | rfl | isWrite := hi
  · cases h; exact State.writerInv_of_empty rfl rfl rfl
  · cases h; exact (State.inv_iff.mp hI).1.of_sameWriter ⟨rfl, rfl, rfl⟩ rfl
  · obtain ⟨f, form⟩ := Option.isSome_iff_exists.mp isWrite
    rw [exec_of_writeForm form] at h
    exact writeBits_writerInv hI (writeForm_width form) h

/-- Every command keeps the invariant: each half by the commands that may change it. -/
theorem exec_keeps_inv {i : Instr} (hI : s.Inv) (h : exec i s = .next t) : t.Inv := by
  obtain ⟨writer, reader, short⟩ := State.inv_iff.mp hI
  obtain ⟨⟨wcap, xsrc, -⟩, -, -⟩ := exec_host_answer_draws h
  refine State.inv_iff.mpr ?_
  obtain ⟨hi, -, frame⟩ | ⟨-, -, frame⟩ | ⟨-, source, len, rfl, sourceHolds⟩ := exec_cases h
  · exact ⟨exec_writerInv hI hi h, reader.of_sameReader frame.reader, xsrc ▸ short⟩
  · exact ⟨writer.of_sameWriter frame.writer wcap, reader.of_sameSource frame.source frame.bound, xsrc ▸ short⟩
  · have bound := s.readerInv_bindReader (sourceHolds hI.wbufHolds)
    exact ⟨writer.of_sameWriter ⟨rfl, rfl, rfl⟩ rfl, bound.of_sameReader ⟨rfl, ⟨rfl, rfl, rfl⟩, rfl⟩, short⟩

theorem runCommands_keeps_inv {is : List Instr} (hI : s.Inv) (h : runCommands is s = .next t) : t.Inv := by
  induction is generalizing s with
  | nil => cases h; exact hI
  | cons i is ih =>
    obtain ⟨s', first, rest⟩ := runCommands_cons_inv h
    exact ih (exec_keeps_inv hI first) rest

/-- The invariant says nothing of the port, and of the external sequence only that it is short enough. -/
theorem State.Inv.with_host (hI : s.Inv) (inputs : List HostInput) {xsrc : List Byte}
    (short : xsrc.length < Config.sourceLimit) : State.Inv { s with inputs := inputs, xsrc := xsrc } := by
  obtain ⟨writer, reader, -⟩ := State.inv_iff.mp hI
  exact State.inv_iff.mpr
    ⟨writer.of_sameWriter ⟨rfl, rfl, rfl⟩ rfl, reader.of_sameReader ⟨rfl, ⟨rfl, rfl, rfl⟩, rfl⟩, short⟩

/-- Everything a step that completes can do: nothing, one command, one placed sequence, or a reset. -/
theorem step_cases (h : step s = .next t) :
    t = s ∨
    (∃ i rest, exec i { s with inputs := rest } = .next t) ∨
    (∃ xsrc rest, xsrc.length < Config.sourceLimit ∧ t = { s with inputs := rest, xsrc := xsrc }) ∨
    ∃ rest, t = resetBlock { s with inputs := rest } := by
  unfold step at h
  split at h
  · exact .inl (by simpa using h.symm)
  · split at h
    · exact .inr (.inl ⟨_, _, h⟩)
    · cases h
  · unfold placeSource at h
    split at h
    · exact .inr (.inr (.inl ⟨_, _, ‹_›, by simpa using h.symm⟩))
    · cases h
  · exact .inr (.inr (.inr ⟨_, by simpa using h.symm⟩))

theorem step_keeps_inv (hI : s.Inv) (h : step s = .next t) : t.Inv := by
  obtain rfl | ⟨i, rest, command⟩ | ⟨xsrc, rest, short, rfl⟩ | ⟨rest, rfl⟩ := step_cases h
  · exact hI
  · exact exec_keeps_inv (hI.with_host rest hI.xsrcBound) command
  · exact hI.with_host rest short
  · exact resetBlock_inv hI.xsrcBound

/-- Settles O13: a command keeps each half of the invariant, and the host's own actions touch only `XSRC` or reset. -/
theorem stepKeepsInvariant : Obligations.StepKeepsInvariant :=
  fun _ _ hI h => step_keeps_inv hI h

/-! ### Reachable states -/

theorem run_keeps_inv {k : Nat} (hI : s.Inv) (h : Sys2Proof.core.run k s = .next t) : t.Inv := by
  induction k generalizing s with
  | zero => cases h; exact hI
  | succ k ih =>
    obtain ⟨s', first, rest⟩ := run_succ_inv h
    exact ih (step_keeps_inv hI first) rest

/-- At a byte-aligned cursor the byte of the cursor is the first one not there (R25). -/
theorem State.Inv.byteIndex_eq (hI : s.Inv) (aligned : bitOffset s.wcur = 0) : byteIndex s.wcur = s.wlen := by
  have length := hI.length
  simp only [bytesFor_def, bitOffset, byteIndex] at *
  omega

/-- Settles O14: the invariant of every reachable state, and where `WCUR` stands in the bytes it holds. -/
theorem writerInvariantsInReachableStates : Obligations.WriterInvariantsInReachableStates := by
  unfold Obligations.WriterInvariantsInReachableStates
  intro capacity source inputs k t short h
  have launched : State.Inv { launch capacity source [] with inputs := inputs } :=
    resetBlock_inv (s := { launch capacity source [] with inputs := inputs }) short
  have hI : t.Inv := run_keeps_inv launched h
  refine ⟨hI.length, fun unaligned => ?_, fun aligned => ?_, fun p above below => hI.padding p below above⟩
  · have last := hI.byteIndex_lt unaligned
    exact ⟨last, by rw [hI.wbufHolds.isSome_read]; exact decide_eq_true (by rw [← last]; exact Nat.lt_succ_self _)⟩
  · have next := hI.byteIndex_eq aligned
    exact ⟨next, hI.wbufHolds.read_none (Nat.le_of_eq next.symm)⟩

/-! ### The size law -/

/-- Along writes the cursor advances by the sum of the counts. -/
theorem runCommands_writes_wcur {ws : List Instr} {fs : List WriteForm} (forms : ws.map writeForm = fs.map some)
    (h : runCommands ws s = .next t) : t.wcur.toNat = s.wcur.toNat + (fs.map (fun f => f.count)).sum := by
  induction ws generalizing s fs with
  | nil =>
    obtain rfl : fs = [] := by simpa using forms.symm
    cases h
    rfl
  | cons w ws ih =>
    obtain _ | ⟨f, fs⟩ := fs
    · cases forms
    · obtain ⟨form, forms⟩ : writeForm w = some f ∧ ws.map writeForm = fs.map some := by simpa using forms
      obtain ⟨s', first, rest⟩ := runCommands_cons_inv h
      rw [exec_of_writeForm form] at first
      obtain ⟨-, -, -, -, -, -, advanced⟩ := writeBits_frame first
      rw [ih forms rest, advanced, List.map_cons, List.sum_cons, Nat.add_assoc]

/-- Settles O35: the cursor starts at 0 and advances by each count, and the invariant gives the length. -/
theorem sizeLaw : Obligations.SizeLaw := by
  unfold Obligations.SizeLaw
  intro ws fs s t hI forms h
  obtain ⟨s', created, writes⟩ := runCommands_cons_inv h
  have start : s'.wcur.toNat = 0 := by cases created; rfl
  have wcur := runCommands_writes_wcur forms writes
  rw [start, Nat.zero_add] at wcur
  exact ⟨wcur, by rw [(runCommands_keeps_inv hI h).length, wcur, bytesFor_def]⟩

end Sys2Proof.Machine
end

section
/-! What a command does on one half of the block depends on that half alone (spec/10_state.md R34): each shared operation,
run in two states that agree on its half, ends in two that agree on it and adds the same answer. -/

namespace Sys2Proof.Machine

variable {s₁ s₂ t₁ : State}

/-- From `s₁` to `t₁` and from `s₂` to `t₂` the same answer is added. -/
abbrev SameAnswer (s₁ t₁ s₂ t₂ : State) : Prop :=
  ∃ o, t₁.outputs = s₁.outputs ++ [o] ∧ t₂.outputs = s₂.outputs ++ [o]

/-! ### The writer's half -/

theorem State.appendBytes_sameWriter (bs : List Byte) (h : s₁.sameWriter s₂) :
    (s₁.appendBytes bs).sameWriter (s₂.appendBytes bs) := by
  induction bs generalizing s₁ s₂ with
  | nil => exact h
  | cons b bs ih =>
    obtain ⟨wcur, wlen, wbuf⟩ := h
    exact ih ⟨wcur, by simp [wlen], by simp [wlen, wbuf]⟩

theorem State.orHead_sameWriter {head : Option Byte} (h : s₁.sameWriter s₂) (ored : s₁.orHead head = some t₁) :
    ∃ t₂, s₂.orHead head = some t₂ ∧ t₁.sameWriter t₂ := by
  obtain ⟨wcur, wlen, wbuf⟩ := h
  obtain ⟨rfl, rfl⟩ | ⟨hd, b, rfl, found, rfl⟩ := State.orHead_cases ored
  · exact ⟨s₂, rfl, wcur, wlen, wbuf⟩
  · exact ⟨{ s₂ with wbuf := s₁.wbuf.write (byteIndex s₁.wcur) (b ||| hd) },
      by simp [State.orHead, wcur, wbuf, found], wcur, wlen, rfl⟩

/-- Everything a write that completes did: it passed its guards, found its partial byte, and appended. -/
theorem writeBits_next {W : Nat} {value : BitVec W} {n : Nat} {s t : State} (h : writeBits W value n s = .next t) :
    ∃ (fitsWidth : n ≤ W) (s' : State), s.writerCanAdvance n ∧ fits s.wcap (bytesFor (s.wcur.toNat + n)) = true ∧
      s.orHead (split (trunc value n fitsWidth) n (bitOffset s.wcur)).1 = some s' ∧
      t = ((s'.appendBytes (split (trunc value n fitsWidth) n (bitOffset s.wcur)).2).advanceWriter n).respond none 0 := by
  obtain ⟨-, e⟩ | ⟨-, -, e⟩ | ⟨-, -, -, e⟩ | ⟨fitsWidth, room, capacity, ⟨-, e⟩ | ⟨s', head, e⟩⟩ :=
    writeBits_cases W value n s
  all_goals cases h.symm.trans e
  exact ⟨fitsWidth, s', room, capacity, head, rfl⟩

/-- A write that passes its guards and finds its partial byte completes. -/
theorem writeBits_of_orHead {W : Nat} {value : BitVec W} {n : Nat} {s s' : State} (fitsWidth : n ≤ W)
    (room : s.writerCanAdvance n) (capacity : fits s.wcap (bytesFor (s.wcur.toNat + n)) = true)
    (head : s.orHead (split (trunc value n fitsWidth) n (bitOffset s.wcur)).1 = some s') :
    writeBits W value n s = .next (((s'.appendBytes
      (split (trunc value n fitsWidth) n (bitOffset s.wcur)).2).advanceWriter n).respond none 0) := by
  simp only [writeBits, dif_pos fitsWidth, if_pos room, if_pos capacity, head]

theorem State.advanceWriter_sameWriter (h : s₁.sameWriter s₂) (n : Nat) :
    (s₁.advanceWriter n).sameWriter (s₂.advanceWriter n) := by
  obtain ⟨wcur, wlen, wbuf⟩ := h
  exact ⟨by simp [wcur], wlen, wbuf⟩

theorem writeBits_sameWriter {W : Nat} {value : BitVec W} {n : Nat} (writer : s₁.sameWriter s₂)
    (wcap : s₂.wcap = s₁.wcap) (h : writeBits W value n s₁ = .next t₁) :
    ∃ t₂, writeBits W value n s₂ = .next t₂ ∧ t₁.sameWriter t₂ ∧ SameAnswer s₁ t₁ s₂ t₂ := by
  obtain ⟨-, -, answer₁, -⟩ := writeBits_frame h
  obtain ⟨fitsWidth, s', room, capacity, head, rfl⟩ := writeBits_next h
  obtain ⟨s'', head₂, same⟩ := State.orHead_sameWriter writer head
  obtain ⟨wcur, -, -⟩ := writer
  rw [← wcur] at head₂
  have h₂ := writeBits_of_orHead fitsWidth (by rw [State.writerCanAdvance, wcur]; exact room)
    (by rw [wcap, wcur]; exact capacity) head₂
  obtain ⟨-, -, answer₂, -⟩ := writeBits_frame h₂
  rw [wcur] at h₂ answer₂
  exact ⟨_, h₂, State.advanceWriter_sameWriter (State.appendBytes_sameWriter _ same) n, _, answer₁, answer₂⟩

theorem exec_sameWriter {i : Instr} (hi : WriterCommand i) (writer : s₁.sameWriter s₂) (wcap : s₂.wcap = s₁.wcap)
    (h : exec i s₁ = .next t₁) : ∃ t₂, exec i s₂ = .next t₂ ∧ t₁.sameWriter t₂ ∧ SameAnswer s₁ t₁ s₂ t₂ := by
  obtain rfl | rfl | isWrite := hi
  · cases h
    exact ⟨_, rfl, ⟨rfl, rfl, rfl⟩, _, rfl, rfl⟩
  · cases h
    obtain ⟨wcur, wlen, wbuf⟩ := writer
    refine ⟨_, rfl, ⟨wcur, wlen, wbuf⟩, _, rfl, ?_⟩
    rw [State.respondBytes_outputs, wlen, wbuf]
  · obtain ⟨f, form⟩ := Option.isSome_iff_exists.mp isWrite
    rw [exec_of_writeForm form] at h ⊢
    exact writeBits_sameWriter writer wcap h

/-! ### The reader's half -/

/-- What `ReadBits` ends in is a function of the cursor and the source. -/
theorem readBits_sameReader (h : s₁.sameReader s₂) (W n : Nat) : readBits W n s₂ = readBits W n s₁ := by
  obtain ⟨rcur, ⟨rlen, rsrc, -⟩, -⟩ := h
  simp only [readBits, State.readerCanAdvance, rcur, rlen, rsrc]

theorem State.respond_sameReader (h : s₁.sameReader s₂) (status : Option ErrorKind) (data : Word64) :
    (s₁.respond status data).sameReader (s₂.respond status data) := h

theorem State.advanceReader_sameReader (h : s₁.sameReader s₂) (n : Nat) :
    (s₁.advanceReader n).sameReader (s₂.advanceReader n) := by
  obtain ⟨rcur, source, serr⟩ := h
  exact ⟨by simp [rcur], source, serr⟩

theorem State.raiseSticky_sameReader (h : s₁.sameReader s₂) (e : ErrorKind) :
    (s₁.raiseSticky e).sameReader (s₂.raiseSticky e) := by
  obtain ⟨rcur, source, serr⟩ := h
  exact ⟨rcur, source, by simp [serr]⟩

theorem directRead_sameReader {W n : Nat} (reader : s₁.sameReader s₂) (h : directRead W n s₁ = .next t₁) :
    ∃ t₂, directRead W n s₂ = .next t₂ ∧ t₁.sameReader t₂ ∧ SameAnswer s₁ t₁ s₂ t₂ := by
  have ⟨_, ⟨_, _, rbound⟩, _⟩ := reader
  have result := readBits_sameReader reader W n
  obtain ⟨bound, ⟨v, value, rfl⟩ | ⟨e, raised, rfl⟩⟩ := directRead_cases h
  · exact ⟨(s₂.advanceReader n).respond none v, by simp [directRead, rbound, bound, result, value],
      State.advanceReader_sameReader reader n, _, rfl, rfl⟩
  · exact ⟨s₂.raiseDirect e, by simp [directRead, rbound, bound, result, raised], reader, _, rfl, rfl⟩

theorem stickyRead_sameReader {W n : Nat} (reader : s₁.sameReader s₂) (h : stickyRead W n s₁ = .next t₁) :
    ∃ t₂, stickyRead W n s₂ = .next t₂ ∧ t₁.sameReader t₂ ∧ SameAnswer s₁ t₁ s₂ t₂ := by
  have ⟨_, ⟨_, _, rbound⟩, serr⟩ := reader
  have result := readBits_sameReader reader W n
  obtain ⟨bound, ⟨e, stored, rfl⟩ | ⟨clear, ⟨v, value, rfl⟩ | ⟨e, raised, rfl⟩⟩⟩ := stickyRead_cases h
  · exact ⟨s₂.respond none 0, by simp [stickyRead, rbound, bound, serr, stored], reader, _, rfl, rfl⟩
  · exact ⟨(s₂.advanceReader n).respond none v, by simp [stickyRead, rbound, bound, serr, clear, result, value],
      State.advanceReader_sameReader reader n, _, rfl, rfl⟩
  · exact ⟨s₂.raiseSticky e, by simp [stickyRead, rbound, bound, serr, clear, result, raised],
      State.raiseSticky_sameReader reader e, _, rfl, rfl⟩

theorem skipBits_sameReader {k : Nat} (reader : s₁.sameReader s₂) (h : skipBits k s₁ = .next t₁) :
    ∃ t₂, skipBits k s₂ = .next t₂ ∧ t₁.sameReader t₂ ∧ SameAnswer s₁ t₁ s₂ t₂ := by
  have ⟨rcur, ⟨_, _, rbound⟩, _⟩ := reader
  obtain ⟨bound, room, rfl⟩ := skipBits_cases h
  have room₂ : s₂.readerCanAdvance k := by rw [State.readerCanAdvance, rcur]; exact room
  exact ⟨(s₂.advanceReader k).respond none 0, by rw [skipBits, if_pos (rbound.trans bound), if_pos room₂],
    State.advanceReader_sameReader reader k, _, rfl, rfl⟩

theorem execSerrq_sameReader (reader : s₁.sameReader s₂) (h : execSerrq s₁ = .next t₁) :
    ∃ t₂, execSerrq s₂ = .next t₂ ∧ t₁.sameReader t₂ ∧ SameAnswer s₁ t₁ s₂ t₂ := by
  have ⟨_, ⟨_, _, rbound⟩, serr⟩ := reader
  obtain ⟨bound, rfl⟩ := execSerrq_cases h
  exact ⟨s₂.respond none ((errorCode s₁.serr).setWidth 64), by rw [execSerrq, if_pos (rbound.trans bound), serr],
    reader, _, rfl, rfl⟩

theorem exec_sameReader {i : Instr} (hi : ReaderCommand i) (reader : s₁.sameReader s₂) (h : exec i s₁ = .next t₁) :
    ∃ t₂, exec i s₂ = .next t₂ ∧ t₁.sameReader t₂ ∧ SameAnswer s₁ t₁ s₂ t₂ := by
  obtain isDirect | isSticky | rfl | ⟨k, isSkip⟩ := hi
  · obtain ⟨⟨W, n⟩, form⟩ := Option.isSome_iff_exists.mp isDirect
    rw [exec_of_directForm form] at h ⊢
    exact directRead_sameReader reader h
  · obtain ⟨⟨W, n⟩, form⟩ := Option.isSome_iff_exists.mp isSticky
    rw [exec_of_stickyForm form] at h ⊢
    exact stickyRead_sameReader reader h
  · exact execSerrq_sameReader reader h
  · rw [exec_of_skip isSkip] at h ⊢
    exact skipBits_sameReader reader h

/-- Settles O16: each shared operation reads its own half only. -/
theorem halvesDoNotInterfere : Obligations.HalvesDoNotInterfere :=
  fun _ _ _ _ h => ⟨fun hi writer wcap => exec_sameWriter hi writer wcap h, fun hi reader => exec_sameReader hi reader h⟩

end Sys2Proof.Machine
end

section
/-! A read and the top of the cursor (spec/10_state.md R27, R28; 42_reader.md R140): within a source whose length `RLEN`
holds, no read makes `RCUR` reach `2^64`; in a longer one, which no run binds, such a read is refused. -/

namespace Sys2Proof.Machine

variable {W n : Nat} {s t : State}

theorem readBits_ne_overflow (hI : s.Inv) (hW : W ≤ 64) : readBits W n s ≠ .overflow := by
  obtain ⟨-, h⟩ | ⟨-, h⟩ | ⟨-, -, -, h⟩ | ⟨-, -, inside, r, -, ⟨-, h⟩ | ⟨noRoom, -⟩⟩ := readBits_spec hI.rsrcHolds hW n
  · simp [h]
  · simp [h]
  · simp [h]
  · simp [h]
  · exact absurd (readerCanAdvance_of_le hI.rlenBound inside) noRoom

/-- A read that finds all its bits and would pass the top of the cursor overflows it. -/
theorem readBits_overflow (holds : s.rsrc.holds s.rlen) (hW : W ≤ 64) (fitsWidth : n ≤ W)
    (inside : s.rcur.toNat + n ≤ 8 * s.rlen) (top : 2 ^ 64 ≤ s.rcur.toNat + n) : readBits W n s = .overflow := by
  have noRoom : ¬ s.readerCanAdvance n := Nat.not_lt.mpr top
  obtain ⟨wide, -⟩ | ⟨rfl, -⟩ | ⟨-, -, outside, -⟩ | ⟨-, -, -, r, -, ⟨room, -⟩ | ⟨-, h⟩⟩ := readBits_spec holds hW n
  · omega
  · exact absurd s.rcur.isLt noRoom
  · omega
  · exact absurd room noRoom
  · exact h

theorem directRead_readCursorOverflow_iff :
    directRead W n s = .refused .readCursorOverflow ↔ s.rbound = true ∧ readBits W n s = .overflow := by
  unfold directRead
  cases s.rbound with
  | false => simp
  | true => cases readBits W n s <;> simp

theorem stickyRead_readCursorOverflow_iff :
    stickyRead W n s = .refused .readCursorOverflow ↔
      s.rbound = true ∧ s.serr = none ∧ readBits W n s = .overflow := by
  unfold stickyRead
  cases s.rbound with
  | false => simp
  | true =>
    cases s.serr with
    | some e => simp
    | none => cases readBits W n s <;> simp

/-- A completed read leaves the cursor or advances it by its count, below the top. -/
theorem directRead_rcur (h : directRead W n s = .next t) :
    t.rcur = s.rcur ∨ (t.rcur.toNat = s.rcur.toNat + n ∧ s.rcur.toNat + n < 2 ^ 64) := by
  obtain ⟨-, ⟨v, value, rfl⟩ | ⟨e, -, rfl⟩⟩ := directRead_cases h
  · have room := readBits_value_advance value
    exact .inr ⟨State.advanceReader_toNat room, room⟩
  · exact .inl rfl

theorem stickyRead_rcur (h : stickyRead W n s = .next t) :
    t.rcur = s.rcur ∨ (t.rcur.toNat = s.rcur.toNat + n ∧ s.rcur.toNat + n < 2 ^ 64) := by
  obtain ⟨-, ⟨e, -, rfl⟩ | ⟨-, ⟨v, value, rfl⟩ | ⟨e, -, rfl⟩⟩⟩ := stickyRead_cases h
  · exact .inl rfl
  · have room := readBits_value_advance value
    exact .inr ⟨State.advanceReader_toNat room, room⟩
  · exact .inl rfl

/-- Settles O42: a read is refused for its cursor exactly where `ReadBits` overflows it, which the invariant excludes. -/
theorem readsDoNotOverflowTheCursor : Obligations.ReadsDoNotOverflowTheCursor := by
  unfold Obligations.ReadsDoNotOverflowTheCursor
  rintro i W n s (form | form)
  · rw [exec_of_directForm form]
    have hW := directForm_width form
    refine ⟨fun hI => ⟨fun refused => ?_, fun _ => directRead_rcur⟩, fun holds bound _ fitsWidth inside top => ?_⟩
    · exact readBits_ne_overflow hI hW (directRead_readCursorOverflow_iff.mp refused).2
    · exact directRead_readCursorOverflow_iff.mpr ⟨bound, readBits_overflow holds hW fitsWidth inside top⟩
  · rw [exec_of_stickyForm form]
    have hW := stickyForm_width form
    refine ⟨fun hI => ⟨fun refused => ?_, fun _ => stickyRead_rcur⟩, fun holds bound clear fitsWidth inside top => ?_⟩
    · exact readBits_ne_overflow hI hW (stickyRead_readCursorOverflow_iff.mp refused).2.2
    · exact stickyRead_readCursorOverflow_iff.mpr
        ⟨bound, clear (directForm_of_stickyForm form), readBits_overflow holds hW fitsWidth inside top⟩

end Sys2Proof.Machine
end

section
/-! The byte memories and the mapper (spec/20_memory.md): how a cursor splits into a byte index and a bit offset, which
bytes of `WBUF` a write can change, and that no command of the writer reaches the reader's half. -/

namespace Sys2Proof.Machine

/-! ### The mapper -/

/-- `c[63:3]` is `c div 8`: the quotient of a 64-bit cursor fits in 61 bits. -/
theorem extractLsb'_index_toNat (c : Cursor) : (c.extractLsb' 3 61).toNat = byteIndex c := by
  have fits61 : c.toNat / 2 ^ 3 < 2 ^ 61 := by have := c.isLt; omega
  rw [BitVec.extractLsb'_toNat, Nat.shiftRight_eq_div_pow, Nat.mod_eq_of_lt fits61]
  rfl

theorem extractLsb'_offset_toNat (c : Cursor) : (c.extractLsb' 0 3).toNat = bitOffset c := by
  rw [BitVec.extractLsb'_toNat, Nat.shiftRight_zero]
  rfl

/-- Settles O21: the index and the offset are the quotient and the remainder by 8, which are the two bit fields. -/
theorem mapperSplitsTheCursor : Obligations.MapperSplitsTheCursor := fun c =>
  ⟨rfl, rfl, (extractLsb'_index_toNat c).symm, (extractLsb'_offset_toNat c).symm, (Nat.div_add_mod c.toNat 8).symm⟩

/-! ### What a write can change of the buffer -/

theorem Memory.bit_of_read {m : Memory} {a q : Nat} {b : Byte} (h : m.read a = some b) (hq : q < 8) :
    m.bit (8 * a + q) = some (b.getLsbD q) := by
  rw [Memory.bit, show (8 * a + q) / 8 = a by omega, show (8 * a + q) % 8 = q by omega, h, Option.map_some]

/-- Two memories that hold the same indices and agree bit by bit are equal. -/
theorem Memory.holds.ext_bit {m m' : Memory} {len : Nat} (h : m.holds len) (h' : m'.holds len)
    (bits : ∀ p < 8 * len, m.bit p = m'.bit p) : m = m' := by
  refine h.ext h' fun a => ?_
  rcases Nat.lt_or_ge a len with inside | outside
  · obtain ⟨b, read⟩ := h.read_some inside
    obtain ⟨b', read'⟩ := h'.read_some inside
    rw [read, read']
    refine congrArg some (BitVec.eq_of_getLsbD_eq fun q hq => ?_)
    simpa [Memory.bit_of_read read hq, Memory.bit_of_read read' hq] using bits (8 * a + q) (by omega)
  · rw [h.read_none outside, h'.read_none outside]

section
variable {W n : Nat} {value : BitVec W} {s t : State}

/-- A write changes no byte outside those from the cursor's up to the new length: below it finds them as they were, and
above neither buffer has a byte. -/
theorem writeBits_read_outside (hI : s.Inv) (hW : W ≤ 64) (h : writeBits W value n s = .next t) {a : Nat}
    (outside : a < byteIndex s.wcur ∨ bytesFor (s.wcur.toNat + n) ≤ a) : t.wbuf.read a = s.wbuf.read a := by
  obtain ⟨wlen, holds, below, -⟩ := writeBits_memory hI hW h
  obtain under | past := outside
  · exact below a under
  · have oldLength := hI.length
    rw [bytesFor_def] at oldLength past
    rw [holds.read_none (by omega), hI.wbufHolds.read_none (by omega)]

/-- A write of no bits leaves the buffer: the length does not grow, and the bits from the cursor up, which it could only
clear, are padding and 0 already (R26). -/
theorem writeBits_zero_wbuf (hI : s.Inv) (hW : W ≤ 64) (h : writeBits W value 0 s = .next t) : t.wbuf = s.wbuf := by
  obtain ⟨wlen, holds, -, below, above⟩ := writeBits_memory hI hW h
  have sameLength : t.wlen = s.wlen := by rw [wlen, hI.length, bytesFor_def, Nat.add_zero]
  rw [sameLength] at holds above
  refine holds.ext_bit hI.wbufHolds fun p inside => ?_
  rcases Nat.lt_or_ge p s.wcur.toNat with written | padding
  · exact below p written
  · rw [above p padding inside, hI.padding p inside padding]
    simp

end

/-- Settles O29: the five writes are `WriteBits`, whose frame and memory laws say what is left. -/
theorem writeFrame : Obligations.WriteFrame := by
  unfold Obligations.WriteFrame
  rintro i ⟨W, value, n⟩ s t form hI h
  have hW := writeForm_width form
  rw [exec_of_writeForm form] at h
  obtain ⟨⟨rcur, ⟨rlen, rsrc, rbound⟩, serr⟩, host, answer, -⟩ := writeBits_frame h
  refine ⟨⟨rcur, ⟨rlen, rsrc, rbound⟩, serr⟩, host, answer, rsrc,
    fun a outside => writeBits_read_outside hI hW h outside, ?_⟩
  rintro rfl
  exact writeBits_zero_wbuf hI hW h

/-! ### The reader's copy -/

theorem State.sameReader_trans {s s' t : State} (first : s.sameReader s') (rest : s'.sameReader t) :
    s.sameReader t := by
  obtain ⟨rcur, ⟨rlen, rsrc, rbound⟩, serr⟩ := first
  obtain ⟨rcur', ⟨rlen', rsrc', rbound'⟩, serr'⟩ := rest
  exact ⟨rcur'.trans rcur, ⟨rlen'.trans rlen, rsrc'.trans rsrc, rbound'.trans rbound⟩, serr'.trans serr⟩

/-- Settles O38, by induction on the commands: each leaves the reader's half, by the frame of the writer's commands. -/
theorem writesAfterBindAreNotSeen : Obligations.WritesAfterBindAreNotSeen := by
  unfold Obligations.WritesAfterBindAreNotSeen
  intro is s t writer h
  induction is generalizing s with
  | nil => cases h; exact ⟨rfl, ⟨rfl, rfl, rfl⟩, rfl⟩
  | cons i is ih =>
    obtain ⟨s', first, rest⟩ := runCommands_cons_inv h
    obtain ⟨hi, his⟩ := List.forall_mem_cons.mp writer
    exact State.sameReader_trans (exec_writerFrame hi first).reader (ih s' his rest)

end Sys2Proof.Machine
end

section
/-! What a word that decodes holds (spec/30_encoding.md R83): each part of the decoder, where it answers with a command,
had before it the fields the encoder gives that command, so a word decodes to `i` just when it is the encoding of a
well-formed `i`. -/

namespace Sys2Proof

theorem bitCountInRange_toNat (n : BitVec 8) : bitCountInRange n.toNat = true := decide_eq_true n.isLt

theorem skipInRange_toNat (k : BitVec 64) : skipInRange k.toNat = true := decide_eq_true k.isLt

/-- A value comes back from a container of `W` bits just when it is below `2^W` (R71). -/
theorem setWidth_setWidth_eq_iff {W : Nat} {v : BitVec 64} :
    (v.setWidth W).setWidth 64 = v ↔ v.toNat < 2 ^ W := by
  constructor
  · intro h
    rw [← h, BitVec.toNat_setWidth]
    exact lt_of_le_of_lt (Nat.mod_le _ _) (v.setWidth W).isLt
  · intro h
    apply BitVec.eq_of_toNat_eq
    rw [BitVec.toNat_setWidth, BitVec.toNat_setWidth, Nat.mod_eq_of_lt h, Nat.mod_eq_of_lt v.isLt]

/-- An answer of the decoder to the fields `f` is sound: a command it answers with has its operands in range, and its
encoding is `f`. -/
def Decoded.SoundFor (f : Fields) (d : Decoded) : Prop :=
  ∀ j, d = .command j → j.wellFormed = true ∧ encodeFields j = f

section
variable {f : Fields} {i : Instr}

theorem Decoded.SoundFor.invalid {why : Rejection} : (Decoded.invalid why).SoundFor f := by
  rintro j ⟨⟩

theorem Decoded.SoundFor.command (hwf : i.wellFormed = true) (henc : encodeFields i = f) :
    (Decoded.command i).SoundFor f := by
  rintro _ ⟨⟩
  exact ⟨hwf, henc⟩

/-- One rung of the decoder's ladders over `OP` and `SUB`. -/
theorem Decoded.SoundFor.ite {c : Prop} [Decidable c] {d e : Decoded} (hthen : c → d.SoundFor f)
    (helse : ¬ c → e.SoundFor f) : (if c then d else e).SoundFor f := by
  split
  · exact hthen ‹_›
  · exact helse ‹_›

theorem decodeBare_sound (hwf : i.wellFormed = true) (henc : encodeFields i = ⟨f.op, f.sub, 0, 0⟩) :
    (decodeBare f i).SoundFor f := by
  intro j h
  obtain ⟨hbc, hval, rfl⟩ := decodeBare_command h
  exact ⟨hwf, by rw [henc, ← hbc, ← hval]⟩

theorem decodeAlone_sound (hwf : i.wellFormed = true) (henc : encodeFields i = ⟨f.op, 0, 0, 0⟩) :
    (decodeAlone f i).SoundFor f := by
  intro j h
  obtain ⟨hsub, hbc, hval, rfl⟩ := decodeAlone_command h
  exact ⟨hwf, by rw [henc, ← hsub, ← hbc, ← hval]⟩

theorem decodeCount_sound (hwf : i.wellFormed = true) (henc : encodeFields i = ⟨f.op, f.sub, f.bc, 0⟩) :
    (decodeCount f i).SoundFor f := by
  intro j h
  obtain ⟨hval, rfl⟩ := decodeCount_command h
  exact ⟨hwf, by rw [henc, ← hval]⟩

theorem decodeValue_sound {W : Nat} (hwf : i.wellFormed = true)
    (henc : encodeFields i = ⟨f.op, f.sub, f.bc, (f.val.setWidth W).setWidth 64⟩) :
    (decodeValue f W i).SoundFor f := by
  intro j h
  obtain ⟨small, rfl⟩ := decodeValue_command h
  exact ⟨hwf, by rw [henc, setWidth_setWidth_eq_iff.mpr small]⟩

theorem decodeSkip_sound (hwf : i.wellFormed = true) (henc : encodeFields i = ⟨f.op, 0, 0, f.val⟩) :
    (decodeSkip f i).SoundFor f := by
  intro j h
  obtain ⟨hsub, hbc, rfl⟩ := decodeSkip_command h
  exact ⟨hwf, by rw [henc, ← hsub, ← hbc]⟩

theorem decodeWrite_sound (hop : f.op = 0x2) : (decodeWrite f).SoundFor f := by
  have count := bitCountInRange_toNat f.bc
  refine .ite (fun hsub => .ite (fun _ => .invalid) fun hbc => decodeValue_sound rfl ?wrb) fun _ =>
    .ite (fun hsub => decodeValue_sound count ?_) fun _ =>
    .ite (fun hsub => decodeValue_sound count ?_) fun _ =>
    .ite (fun hsub => decodeValue_sound count ?_) fun _ =>
    .ite (fun hsub => .command count ?wr64) fun _ => .invalid
  case wrb =>
    rw [Decidable.of_not_not hbc, hop, hsub, BitVec.setWidth_one]
    rfl
  case wr64 => simp [encodeFields, ← hop, ← hsub]
  all_goals simp [encodeFields, hop, hsub]

theorem decodeCreateReader_sound (hop : f.op = 0x4) : (decodeCreateReader f).SoundFor f := by
  refine .ite (fun hsub => decodeBare_sound rfl ?_) fun _ =>
    .ite (fun hsub => decodeBare_sound rfl ?_) fun _ => .invalid
  all_goals simp [encodeFields, hop, hsub]

/-- The direct and the sticky reads select their container alike (R68). -/
theorem decodeReads_sound :
    (f.op = 0x5 → (decodeRead f).SoundFor f) ∧ (f.op = 0x7 → (decodeStickyRead f).SoundFor f) := by
  have count := bitCountInRange_toNat f.bc
  constructor <;> intro hop
  all_goals
    refine .ite (fun hsub => decodeBare_sound rfl ?_) fun _ =>
      .ite (fun hsub => decodeCount_sound count ?_) fun _ =>
      .ite (fun hsub => decodeCount_sound count ?_) fun _ =>
      .ite (fun hsub => decodeCount_sound count ?_) fun _ =>
      .ite (fun hsub => decodeCount_sound count ?_) fun _ => .invalid
    all_goals simp [encodeFields, hop, hsub]

theorem decodeFields_sound (f : Fields) : (decodeFields f).SoundFor f := by
  have amount := skipInRange_toNat f.val
  refine .ite (fun hop => decodeAlone_sound rfl ?_) fun _ =>
    .ite decodeWrite_sound fun _ =>
    .ite (fun hop => decodeAlone_sound rfl ?_) fun _ =>
    .ite decodeCreateReader_sound fun _ =>
    .ite decodeReads_sound.1 fun _ =>
    .ite (fun hop => decodeSkip_sound amount ?_) fun _ =>
    .ite decodeReads_sound.2 fun _ =>
    .ite (fun hop => decodeSkip_sound amount ?_) fun _ =>
    .ite (fun hop => decodeAlone_sound rfl ?_) fun _ => .invalid
  all_goals simp [encodeFields, hop]

end

/-- The decoder and the encoder are inverse to each other between the well-formed commands and the words that are not
reserved. -/
theorem decode_eq_command_iff {w : CommandWord} {i : Instr} :
    decode w = .command i ↔ i.wellFormed = true ∧ encode i = w := by
  constructor
  · intro h
    obtain ⟨hwf, henc⟩ := decodeFields_sound (fieldsOf w) i h
    exact ⟨hwf, by rw [encode, henc, wordOf_fieldsOf]⟩
  · rintro ⟨hwf, rfl⟩
    exact decode_encode hwf

/-- Settles O1: `decode_encode`. -/
theorem decodeAfterEncodeIsIdentity : Obligations.DecodeAfterEncodeIsIdentity := fun _ => decode_encode

/-- Settles O2: every part of the decoder is sound for the fields it reads, and a word is the word of its fields. -/
theorem encodeAfterDecodeIsIdentity : Obligations.EncodeAfterDecodeIsIdentity := fun _ _ => decode_eq_command_iff.mp

/-- Settles O6: the decoder evaluated on each word. -/
theorem wordsOfTheSpecDecode : Obligations.WordsOfTheSpecDecode := by
  unfold Obligations.WordsOfTheSpecDecode
  decide

end Sys2Proof
end

section
/-! The opcode map held against the decoder (spec/30_encoding.md R74): a row's mask and match leave free exactly the
bits its command has operands in, so a row accepts a word just when that word is the encoding of the command the row reads
from it. -/

namespace Sys2Proof

/-! ### How a row is laid out -/

/-- A row of the map keeps `OP` and `SUB`, leaves `BC` free where its command takes a count (R70), and leaves the low
`W` bits of `VAL` free (R71, R72); the command it reads is encoded with these operands and 0 elsewhere. -/
structure OpcodeRow.Layout (row : OpcodeRow) (op sub : BitVec 4) (counted : Bool) (W : Nat) : Prop where
  pattern : row.pattern = wordOf ⟨op, sub, 0, 0⟩
  mask : row.mask =
    wordOf ⟨BitVec.allOnes 4, BitVec.allOnes 4, if counted then 0 else BitVec.allOnes 8, BitVec.allOnes 64 <<< W⟩
  wellFormed : ∀ w, (row.command w).wellFormed = true
  fields : ∀ w, encodeFields (row.command w) =
    ⟨op, sub, if counted then (fieldsOf w).bc else 0, ((fieldsOf w).val.setWidth W).setWidth 64⟩

abbrev OpcodeRow.LaidOut (row : OpcodeRow) : Prop := ∃ op sub counted W, row.Layout op sub counted W

theorem encode_eq_iff {i : Instr} {w : CommandWord} : encode i = w ↔ encodeFields i = fieldsOf w := by
  constructor
  · rintro rfl
    exact (fieldsOf_wordOf _).symm
  · intro h
    rw [encode, h, wordOf_fieldsOf]

/-- A row accepts the words that encode what it reads from them: under the mask each field is either kept and compared,
or free and an operand. -/
theorem OpcodeRow.Layout.accepts_iff {row : OpcodeRow} {op sub : BitVec 4} {counted : Bool} {W : Nat}
    (h : row.Layout op sub counted W) (w : CommandWord) : row.accepts w ↔ encode (row.command w) = w := by
  have hval : (fieldsOf w).val &&& (BitVec.allOnes 64 <<< W) = 0 ↔
      ((fieldsOf w).val.setWidth W).setWidth 64 = (fieldsOf w).val := by
    rw [and_highMask_eq_zero_iff, ushiftRight_eq_zero_iff, setWidth_setWidth_eq_iff]
  have hbc : (fieldsOf w).bc &&& (if counted then 0 else BitVec.allOnes 8) = 0 ↔
      (if counted then (fieldsOf w).bc else 0) = (fieldsOf w).bc := by
    cases counted
    · rw [if_neg Bool.false_ne_true, if_neg Bool.false_ne_true, BitVec.and_allOnes, eq_comm]
    · simp
  rw [OpcodeRow.accepts, h.mask, h.pattern, masked_iff, encode_eq_iff, h.fields, hval, hbc, BitVec.and_allOnes,
    BitVec.and_allOnes]
  constructor
  · rintro ⟨rfl, rfl, hbc, hval⟩
    rw [hbc, hval]
  · intro h
    exact ⟨(congrArg Fields.op h).symm, (congrArg Fields.sub h).symm, congrArg Fields.bc h, congrArg Fields.val h⟩

/-! ### The rows of the map, by the operands of their commands -/

/-- The low bits of a word are those of `VAL` (R66). -/
theorem extractLsb'_zero_eq_val {W : Nat} (hW : W ≤ 64) (w : CommandWord) :
    w.extractLsb' 0 W = (fieldsOf w).val.setWidth W := by
  rw [fieldsOf, ← BitVec.setWidth_eq_extractLsb' (by omega), ← BitVec.setWidth_eq_extractLsb' (by omega),
    BitVec.setWidth_setWidth_of_le w hW]

theorem ofNat_wordCount (w : CommandWord) : BitVec.ofNat 8 (wordCount w) = (fieldsOf w).bc := by
  rw [wordCount, BitVec.ofNat_toNat, BitVec.setWidth_eq, fieldsOf]

theorem wordCount_inRange (w : CommandWord) : bitCountInRange (wordCount w) = true := bitCountInRange_toNat _

section
variable {name : String} {pattern mask : CommandWord} {op sub : BitVec 4}

theorem laidOut_bare {i : Instr} (hwf : i.wellFormed = true) (henc : encodeFields i = ⟨op, sub, 0, 0⟩)
    (hpattern : pattern = wordOf ⟨op, sub, 0, 0⟩) (hmask : mask = 0xFFFFFFFFFFFFFFFFFFFF) :
    (OpcodeRow.mk name pattern mask fun _ => i).LaidOut :=
  ⟨op, sub, false, 0, hpattern, hmask.trans (by decide), fun _ => hwf, fun w => by simp [henc, BitVec.of_length_zero]⟩

theorem laidOut_count {r : Nat → Instr} (hwf : ∀ n, (r n).wellFormed = bitCountInRange n)
    (henc : ∀ n, encodeFields (r n) = ⟨op, sub, BitVec.ofNat 8 n, 0⟩)
    (hpattern : pattern = wordOf ⟨op, sub, 0, 0⟩) (hmask : mask = 0xFF00FFFFFFFFFFFFFFFF) :
    (OpcodeRow.mk name pattern mask fun w => r (wordCount w)).LaidOut :=
  ⟨op, sub, true, 0, hpattern, hmask.trans (by decide), fun w => (hwf _).trans (wordCount_inRange w),
    fun w => by simp [henc, ofNat_wordCount, BitVec.of_length_zero]⟩

theorem laidOut_valueAndCount {W : Nat} {r : BitVec W → Nat → Instr} (hW : W ≤ 64)
    (hwf : ∀ v n, (r v n).wellFormed = bitCountInRange n)
    (henc : ∀ v n, encodeFields (r v n) = ⟨op, sub, BitVec.ofNat 8 n, v.setWidth 64⟩)
    (hpattern : pattern = wordOf ⟨op, sub, 0, 0⟩)
    (hmask : mask = wordOf ⟨0xF, 0xF, 0, BitVec.allOnes 64 <<< W⟩) :
    (OpcodeRow.mk name pattern mask fun w => r (w.extractLsb' 0 W) (wordCount w)).LaidOut :=
  ⟨op, sub, true, W, hpattern, hmask, fun w => (hwf _ _).trans (wordCount_inRange w),
    fun w => by simp [henc, ofNat_wordCount, extractLsb'_zero_eq_val hW]⟩

theorem laidOut_skip {r : Nat → Instr} (hwf : ∀ k, (r k).wellFormed = skipInRange k)
    (henc : ∀ k, encodeFields (r k) = ⟨op, sub, 0, BitVec.ofNat 64 k⟩)
    (hpattern : pattern = wordOf ⟨op, sub, 0, 0⟩) (hmask : mask = 0xFFFF0000000000000000) :
    (OpcodeRow.mk name pattern mask fun w => r (w.extractLsb' 0 64).toNat).LaidOut :=
  ⟨op, sub, false, 64, hpattern, hmask.trans (by decide), fun w => (hwf _).trans (skipInRange_toNat _),
    fun w => by rw [henc, BitVec.ofNat_toNat, extractLsb'_zero_eq_val le_rfl]; simp⟩

end

theorem writerRows_laidOut : ∀ row ∈ writerRows, row.LaidOut := by
  simp only [writerRows, List.forall_mem_cons, List.not_mem_nil, false_imp_iff, implies_true, and_true]
  refine ⟨laidOut_bare rfl rfl rfl rfl, ⟨0x2, 0x0, false, 1, rfl, by decide, fun _ => rfl, fun w => ?wrb⟩,
    laidOut_valueAndCount (by decide) (fun _ _ => rfl) (fun _ _ => rfl) rfl (by decide),
    laidOut_valueAndCount (by decide) (fun _ _ => rfl) (fun _ _ => rfl) rfl (by decide),
    laidOut_valueAndCount (by decide) (fun _ _ => rfl) (fun _ _ => rfl) rfl (by decide),
    laidOut_valueAndCount (by decide) (fun _ _ => rfl) (fun v _ => by rw [BitVec.setWidth_eq]; rfl) rfl (by decide),
    laidOut_bare rfl rfl rfl rfl⟩
  rw [← extractLsb'_zero_eq_val (by decide), ← BitVec.setWidth_eq_extractLsb' (by decide), BitVec.setWidth_one]
  rfl

theorem readerRows_laidOut : ∀ row ∈ readerRows, row.LaidOut := by
  simp only [readerRows, List.forall_mem_cons, List.not_mem_nil, false_imp_iff, implies_true, and_true]
  exact ⟨laidOut_bare rfl rfl rfl rfl, laidOut_bare rfl rfl rfl rfl, laidOut_bare rfl rfl rfl rfl,
    laidOut_count (fun _ => rfl) (fun _ => rfl) rfl rfl, laidOut_count (fun _ => rfl) (fun _ => rfl) rfl rfl,
    laidOut_count (fun _ => rfl) (fun _ => rfl) rfl rfl, laidOut_count (fun _ => rfl) (fun _ => rfl) rfl rfl,
    laidOut_skip (fun _ => rfl) (fun _ => rfl) rfl rfl⟩

theorem stickyRows_laidOut : ∀ row ∈ stickyRows, row.LaidOut := by
  simp only [stickyRows, List.forall_mem_cons, List.not_mem_nil, false_imp_iff, implies_true, and_true]
  exact ⟨laidOut_bare rfl rfl rfl rfl,
    laidOut_count (fun _ => rfl) (fun _ => rfl) rfl rfl, laidOut_count (fun _ => rfl) (fun _ => rfl) rfl rfl,
    laidOut_count (fun _ => rfl) (fun _ => rfl) rfl rfl, laidOut_count (fun _ => rfl) (fun _ => rfl) rfl rfl,
    laidOut_skip (fun _ => rfl) (fun _ => rfl) rfl rfl, laidOut_bare rfl rfl rfl rfl⟩

theorem opcodeTable_laidOut {row : OpcodeRow} (h : row ∈ opcodeTable) : row.LaidOut := by
  rcases List.mem_append.mp h with h | h
  · exact (List.mem_append.mp h).elim (writerRows_laidOut row) (readerRows_laidOut row)
  · exact stickyRows_laidOut row h

/-! ### The map and the decoder -/

/-- A word matches a row just when it decodes to the command the row reads from it (R74). -/
theorem accepts_iff_decode {row : OpcodeRow} (h : row ∈ opcodeTable) (w : CommandWord) :
    row.accepts w ↔ decode w = .command (row.command w) := by
  obtain ⟨op, sub, counted, W, layout⟩ := opcodeTable_laidOut h
  rw [layout.accepts_iff, decode_eq_command_iff, and_iff_right (layout.wellFormed w)]

theorem row_command_mnemonic : ∀ row ∈ opcodeTable, ∀ w, (row.command w).mnemonic = row.mnemonic := by
  simp [opcodeTable, writerRows, readerRows, stickyRows, Instr.mnemonic]

theorem opcodeTable_mnemonics : (opcodeTable.map OpcodeRow.mnemonic).Nodup := by decide

/-- A word that two rows accept decodes to both rows' commands, so they have one mnemonic. -/
theorem opcodeTable_disjoint : opcodeTable.Pairwise fun a b => ∀ w, ¬ (a.accepts w ∧ b.accepts w) := by
  refine (List.pairwise_map.mp opcodeTable_mnemonics).imp_of_mem fun {a b} ha hb hne w => ?_
  rintro ⟨hacc, hbcc⟩
  rw [accepts_iff_decode ha] at hacc
  rw [accepts_iff_decode hb, hacc, Decoded.command.injEq] at hbcc
  exact hne (by rw [← row_command_mnemonic a ha w, ← row_command_mnemonic b hb w, hbcc])

theorem wordCount_encode (i : Instr) : wordCount (encode i) = (encodeFields i).bc.toNat :=
  congrArg (fun f : Fields => f.bc.toNat) (fieldsOf_wordOf (encodeFields i))

theorem extractLsb'_encode {W : Nat} (hW : W ≤ 64) (i : Instr) :
    (encode i).extractLsb' 0 W = (encodeFields i).val.setWidth W := by
  rw [extractLsb'_zero_eq_val hW, encode, fieldsOf_wordOf]

/-- Every well-formed command is what a row of the map reads from the command's own encoding. -/
theorem exists_row_reads_encode {i : Instr} (h : i.wellFormed = true) :
    ∃ row ∈ opcodeTable, row.command (encode i) = i := by
  simp only [opcodeTable, writerRows, readerRows, stickyRows, List.cons_append, List.nil_append,
    List.exists_mem_cons_iff]
  cases i with
  | wnew | wbytes | rnewX | rnewW | rdb | srdb | serrq => simp
  | wrb b =>
    have low : (encode (.wrb b))[0] = b := by cases b <;> decide
    simp [low]
  | wr8 v n | wr16 v n | wr32 v n =>
    have count := toNat_ofNat_of_bitCountInRange h
    simp [wordCount_encode, extractLsb'_encode, encodeFields, BitVec.setWidth_setWidth_of_le, count]
  | wr64 v n =>
    have count := toNat_ofNat_of_bitCountInRange h
    simp [wordCount_encode, extractLsb'_encode, encodeFields, count]
  | rd8 n | rd16 n | rd32 n | rd64 n | srd8 n | srd16 n | srd32 n | srd64 n =>
    have count := toNat_ofNat_of_bitCountInRange h
    simp [wordCount_encode, encodeFields, count]
  | rskip k | sskip k =>
    have amount := toNat_ofNat_of_skipInRange h
    simp [extractLsb'_encode, encodeFields, amount]

/-- There is no command beside the rows' (R74). -/
theorem exists_row_of_decode {w : CommandWord} {i : Instr} (h : decode w = .command i) :
    ∃ row ∈ opcodeTable, row.accepts w ∧ row.command w = i := by
  obtain ⟨hwf, rfl⟩ := decode_eq_command_iff.mp h
  obtain ⟨row, hrow, hcommand⟩ := exists_row_reads_encode hwf
  exact ⟨row, hrow, (accepts_iff_decode hrow _).mpr (by rw [hcommand, h]), hcommand⟩

/-- Settles O3: each clause from `accepts_iff_decode`, and the five worked encodings evaluated. -/
theorem opcodeMapAgreesWithDecoder : Obligations.OpcodeMapAgreesWithDecoder :=
  ⟨fun _ => accepts_iff_decode, row_command_mnemonic, opcodeTable_disjoint, fun _ _ => exists_row_of_decode,
    by decide⟩

end Sys2Proof
end

section
/-! The reserved encodings (spec/30_encoding.md R75): which fields each part of the decoder rejects, and from that the
decoder's rejections as the words that match no row of the opcode map. -/

namespace Sys2Proof

/-! ### What each part of the decoder rejects -/

/-- The decoder answers `invalid`, for whatever reason (assumption log 10). -/
def Decoded.Rejects (d : Decoded) : Prop := ∃ why, d = .invalid why

@[simp] theorem rejects_invalid (why : Rejection) : (Decoded.invalid why).Rejects := ⟨why, rfl⟩

@[simp] theorem not_rejects_command (i : Instr) : ¬ (Decoded.command i).Rejects := nofun

theorem rejects_guard {c : Prop} [Decidable c] {why : Rejection} {d : Decoded} :
    (if c then .invalid why else d).Rejects ↔ c ∨ d.Rejects := by
  by_cases h : c <;> simp [h]

theorem rejects_iff_ne_command {d : Decoded} : d.Rejects ↔ ∀ i, d ≠ .command i := by
  cases d <;> simp

section
variable {f : Fields} {i : Instr}

theorem decodeBare_rejects : (decodeBare f i).Rejects ↔ f.bc ≠ 0 ∨ f.val ≠ 0 := by
  rw [decodeBare, rejects_guard, rejects_guard]
  simp

theorem decodeAlone_rejects : (decodeAlone f i).Rejects ↔ f.sub ≠ 0 ∨ f.bc ≠ 0 ∨ f.val ≠ 0 := by
  rw [decodeAlone, rejects_guard, decodeBare_rejects]

theorem decodeCount_rejects : (decodeCount f i).Rejects ↔ f.val ≠ 0 := by
  rw [decodeCount, rejects_guard]
  simp

theorem decodeValue_rejects {W : Nat} : (decodeValue f W i).Rejects ↔ 2 ^ W ≤ f.val.toNat := by
  rw [decodeValue, rejects_guard, ne_eq, ushiftRight_eq_zero_iff, Nat.not_lt]
  simp

theorem decodeSkip_rejects : (decodeSkip f i).Rejects ↔ f.sub ≠ 0 ∨ f.bc ≠ 0 := by
  rw [decodeSkip, rejects_guard, rejects_guard]
  simp

/-- `SUB` selects one of five containers or is out of range (R68). -/
theorem sub_cases (sub : BitVec 4) : sub = 0#4 ∨ sub = 1#4 ∨ sub = 2#4 ∨ sub = 3#4 ∨ sub = 4#4 ∨
    (5 ≤ sub.toNat ∧ sub ≠ 0#4 ∧ sub ≠ 1#4 ∧ sub ≠ 2#4 ∧ sub ≠ 3#4 ∧ sub ≠ 4#4) := by
  revert sub; decide

theorem decodeWrite_rejects : (decodeWrite f).Rejects ↔ 5 ≤ f.sub.toNat ∨ (f.sub = 0 ∧ f.bc ≠ 0) ∨
    (f.sub = 0 ∧ 2 ^ 1 ≤ f.val.toNat) ∨ (f.sub = 1 ∧ 2 ^ 8 ≤ f.val.toNat) ∨
    (f.sub = 2 ∧ 2 ^ 16 ≤ f.val.toNat) ∨ (f.sub = 3 ∧ 2 ^ 32 ≤ f.val.toNat) := by
  rcases sub_cases f.sub with h | h | h | h | h | h
  · rw [decodeWrite, if_pos h, rejects_guard, decodeValue_rejects]
    simp [h]
  · simp [decodeWrite, h, decodeValue_rejects]
  · simp [decodeWrite, h, decodeValue_rejects]
  · simp [decodeWrite, h, decodeValue_rejects]
  · simp [decodeWrite, h]
  · simp [decodeWrite, h]

/-- `SUB` selects one of two sources or is out of range (R69). -/
theorem source_cases (sub : BitVec 4) : sub = 0#4 ∨ sub = 1#4 ∨ (2 ≤ sub.toNat ∧ sub ≠ 0#4 ∧ sub ≠ 1#4) := by
  revert sub; decide

theorem decodeCreateReader_rejects :
    (decodeCreateReader f).Rejects ↔ 2 ≤ f.sub.toNat ∨ f.bc ≠ 0 ∨ f.val ≠ 0 := by
  rcases source_cases f.sub with h | h | h
  · simp [decodeCreateReader, h, decodeBare_rejects]
  · simp [decodeCreateReader, h, decodeBare_rejects]
  · simp [decodeCreateReader, h]

/-- The direct and the sticky reads reject alike (R68, R73). -/
theorem decodeReads_rejects :
    ((decodeRead f).Rejects ↔ 5 ≤ f.sub.toNat ∨ (f.sub = 0 ∧ f.bc ≠ 0) ∨ f.val ≠ 0) ∧
    ((decodeStickyRead f).Rejects ↔ 5 ≤ f.sub.toNat ∨ (f.sub = 0 ∧ f.bc ≠ 0) ∨ f.val ≠ 0) := by
  constructor
  all_goals
    rcases sub_cases f.sub with h | h | h | h | h | h
    · simp [decodeRead, decodeStickyRead, h, decodeBare_rejects]
    iterate 4 · simp [decodeRead, decodeStickyRead, h, decodeCount_rejects]
    · simp [decodeRead, decodeStickyRead, h]

/-- `OP` selects one of nine groups or is reserved (R67). -/
theorem op_cases (op : BitVec 4) : op = 0#4 ∨ op = 1#4 ∨ op = 2#4 ∨ op = 3#4 ∨ op = 4#4 ∨ op = 5#4 ∨ op = 6#4 ∨
    op = 7#4 ∨ op = 8#4 ∨ op = 9#4 ∨ (10 ≤ op.toNat ∧ op ≠ 0#4 ∧ op ≠ 1#4 ∧ op ≠ 2#4 ∧ op ≠ 3#4 ∧ op ≠ 4#4 ∧
      op ≠ 5#4 ∧ op ≠ 6#4 ∧ op ≠ 7#4 ∧ op ≠ 8#4 ∧ op ≠ 9#4) := by
  revert op; decide

end

/-! ### Reserved words -/

/-- No row of the map accepts a word just when the decoder rejects it. -/
theorem no_row_accepts_iff (w : CommandWord) : (∀ row ∈ opcodeTable, ¬ row.accepts w) ↔ (decode w).Rejects := by
  rw [rejects_iff_ne_command]
  constructor
  · intro h i hdecode
    obtain ⟨row, hrow, accepts, -⟩ := exists_row_of_decode hdecode
    exact h row hrow accepts
  · intro h row hrow accepts
    exact h _ ((accepts_iff_decode hrow w).mp accepts)

/-- A reserved word on the port is refused, in every state (R75). -/
theorem step_of_invalid {s : Machine.State} {w : CommandWord} {rest : List Machine.HostInput} {why : Rejection}
    (h : decode w = .invalid why) :
    Machine.step { s with inputs := .command w :: rest } = .refused (.reservedEncoding why) := by
  simp only [Machine.step, h]

/-- Settles O4: what no row accepts the decoder rejects, which each group of R67 does for the shapes R75 gives it. -/
theorem reservedWordsAreInvalidAndRefused : Obligations.ReservedWordsAreInvalidAndRefused := by
  unfold Obligations.ReservedWordsAreInvalidAndRefused
  refine fun w => ⟨?_, no_row_accepts_iff w, fun s rest why => step_of_invalid⟩
  rw [no_row_accepts_iff, decode]
  rcases op_cases (fieldsOf w).op with h | h | h | h | h | h | h | h | h | h | h
  · simp [decodeFields, h]
  · simp [decodeFields, h, decodeAlone_rejects]
  · simp [decodeFields, h, decodeWrite_rejects]
  · simp [decodeFields, h, decodeAlone_rejects]
  · simp [decodeFields, h, decodeCreateReader_rejects]
  · simp [decodeFields, h, decodeReads_rejects]
  · simp [decodeFields, h, decodeSkip_rejects]
  · simp [decodeFields, h, decodeReads_rejects]
  · simp [decodeFields, h, decodeSkip_rejects]
  · simp [decodeFields, h, decodeAlone_rejects]
  · simp [decodeFields, h]

end Sys2Proof
end

section
/-! The bits of a response word (spec/30_encoding.md R80). -/

namespace Sys2Proof.Machine

theorem errorCode_ne_three (status : Option ErrorKind) : errorCode status ≠ 3 := by
  rcases status with _ | _ | _ <;> decide

/-- Settles O8: the word is the code's two bits above the data's 64. -/
theorem responseWordFields : Obligations.ResponseWordFields := fun r =>
  ⟨BitVec.extractLsb'_append_eq_left, BitVec.extractLsb'_append_eq_right, errorCode_ne_three r.status, rfl, rfl, rfl⟩

end Sys2Proof.Machine
end

section
/-! The assembler never truncates (spec/30_encoding.md R77): every row of its table builds a command whose operands are
the numbers given to it, and reads them against the limits of the command's mnemonic. -/

namespace Sys2Proof.Machine

/-- What a row makes of the numbers `vals` is a well-formed command of the row's mnemonic with these operands. -/
structure AssemblyRow.Builds (row : AssemblyRow) (i : Instr) (vals : List Nat) : Prop where
  wellFormed : i.wellFormed = true
  mnemonic : i.mnemonic = row.mnemonic
  operands : operandValues i = vals

/-- A number below `2^W` is the value of its `W` bits. -/
theorem AssemblyRow.Builds.of_toNat {row : AssemblyRow} {i : Instr} {W v n : Nat} (hv : v < 2 ^ W)
    (h : row.Builds i [(BitVec.ofNat W v).toNat, n]) : row.Builds i [v, n] := by
  rwa [BitVec.toNat_ofNat, Nat.mod_eq_of_lt hv] at h

/-- The row builds the right command from any numbers below its limits. -/
def AssemblyRow.Sound (row : AssemblyRow) : Prop :=
  match row.shape with
  | .bare i => row.Builds i []
  | .one limit f => ∀ v < limit, row.Builds (f v) [v]
  | .valueAndCount W f => ∀ (v : BitVec W), ∀ n < 2 ^ 8, row.Builds (f v n) [v.toNat, n]

/-- The limits a row reads its operands against. -/
def OperandShape.limits : OperandShape → List Nat
  | .bare _ => []
  | .one limit _ => [limit]
  | .valueAndCount W _ => [2 ^ W, 2 ^ 8]

theorem writerSyntax_sound : ∀ row ∈ writerSyntax, row.Sound := by
  simp only [writerSyntax, List.forall_mem_cons, List.not_mem_nil, false_imp_iff, implies_true, and_true]
  refine ⟨⟨rfl, rfl, rfl⟩, fun v hv => ⟨rfl, rfl, ?_⟩, fun _ _ hn => ⟨decide_eq_true hn, rfl, rfl⟩,
    fun _ _ hn => ⟨decide_eq_true hn, rfl, rfl⟩, fun _ _ hn => ⟨decide_eq_true hn, rfl, rfl⟩,
    fun _ _ hn => ⟨decide_eq_true hn, rfl, rfl⟩, ⟨rfl, rfl, rfl⟩⟩
  interval_cases v <;> rfl

theorem readerSyntax_sound : ∀ row ∈ readerSyntax, row.Sound := by
  simp only [readerSyntax, List.forall_mem_cons, List.not_mem_nil, false_imp_iff, implies_true, and_true]
  exact ⟨⟨rfl, rfl, rfl⟩, ⟨rfl, rfl, rfl⟩, ⟨rfl, rfl, rfl⟩, fun _ hn => ⟨decide_eq_true hn, rfl, rfl⟩,
    fun _ hn => ⟨decide_eq_true hn, rfl, rfl⟩, fun _ hn => ⟨decide_eq_true hn, rfl, rfl⟩,
    fun _ hn => ⟨decide_eq_true hn, rfl, rfl⟩, fun _ hk => ⟨decide_eq_true hk, rfl, rfl⟩⟩

theorem stickySyntax_sound : ∀ row ∈ stickySyntax, row.Sound := by
  simp only [stickySyntax, List.forall_mem_cons, List.not_mem_nil, false_imp_iff, implies_true, and_true]
  exact ⟨⟨rfl, rfl, rfl⟩, fun _ hn => ⟨decide_eq_true hn, rfl, rfl⟩, fun _ hn => ⟨decide_eq_true hn, rfl, rfl⟩,
    fun _ hn => ⟨decide_eq_true hn, rfl, rfl⟩, fun _ hn => ⟨decide_eq_true hn, rfl, rfl⟩,
    fun _ hk => ⟨decide_eq_true hk, rfl, rfl⟩, ⟨rfl, rfl, rfl⟩⟩

theorem assemblyTable_sound {row : AssemblyRow} (h : row ∈ assemblyTable) : row.Sound := by
  rcases List.mem_append.mp h with h | h
  · exact (List.mem_append.mp h).elim (writerSyntax_sound row) (readerSyntax_sound row)
  · exact stickySyntax_sound row h

theorem assemblyTable_mnemonic_ne_nil : ∀ row ∈ assemblyTable, row.mnemonic.toList ≠ [] := by decide

/-- Every command's mnemonic has a row, which reads the operands against the limits of R77. -/
theorem exists_row_of_mnemonic (i : Instr) :
    ∃ row ∈ assemblyTable, row.mnemonic = i.mnemonic ∧ row.shape.limits = operandLimits i := by
  simp only [assemblyTable, writerSyntax, readerSyntax, stickySyntax, List.cons_append, List.nil_append,
    List.exists_mem_cons_iff]
  cases i <;> simp [Instr.mnemonic, OperandShape.limits, operandLimits]

/-- Clause (1) for one row: what it assembles to is built from the numbers written. -/
theorem AssemblyRow.Sound.of_command {row : AssemblyRow} (sound : row.Sound) {ops : List (List Char)} {i : Instr}
    (h : row.shape.assemble ops = .command i) :
    ∃ vals, row.Builds i vals ∧ ops.map numberValue = vals.map some := by
  obtain ⟨mnemonic, shape⟩ := row
  cases shape with
  | bare j =>
    obtain ⟨rfl, rfl⟩ := assemble_bare h
    exact ⟨[], sound, rfl⟩
  | one limit f =>
    obtain ⟨a, v, rfl, ha, hv, rfl⟩ := assemble_one h
    exact ⟨[v], sound v hv, by simp [ha]⟩
  | valueAndCount W f =>
    obtain ⟨a, b, v, n, rfl, ha, hv, hb, hn, rfl⟩ := assemble_valueAndCount h
    exact ⟨[v, n], .of_toNat hv (sound _ n hn), by simp [ha, hb]⟩

/-- Clause (2) for one row: as many numbers as the row has limits are rejected if one reaches its limit, and are the
operands of the command built otherwise. -/
theorem AssemblyRow.Sound.of_numbers {row : AssemblyRow} (sound : row.Sound) {ops : List (List Char)} {vals : List Nat}
    (hvals : ops.map numberValue = vals.map some) (hlength : vals.length = row.shape.limits.length) :
    ((∃ p ∈ vals.zip row.shape.limits, p.2 ≤ p.1) → row.shape.assemble ops = .error .outOfRange) ∧
    ((∀ p ∈ vals.zip row.shape.limits, p.1 < p.2) →
      ∃ j, row.shape.assemble ops = .command j ∧ row.Builds j vals) := by
  obtain ⟨mnemonic, shape⟩ := row
  cases shape with
  | bare j =>
    obtain rfl := List.length_eq_zero_iff.mp hlength
    obtain rfl := List.map_eq_nil_iff.mp hvals
    exact ⟨by simp, fun _ => ⟨j, rfl, sound⟩⟩
  | one limit f =>
    obtain ⟨v, rfl⟩ := List.length_eq_one_iff.mp hlength
    obtain ⟨a, rfl, ha⟩ := List.map_eq_singleton_iff.mp hvals
    simp only [OperandShape.limits, List.zip_cons_cons, List.zip_nil_left, List.mem_singleton, forall_eq,
      exists_eq_left, assemble_one_number ha]
    exact ⟨fun out => if_neg (Nat.not_lt.mpr out), fun hv => ⟨f v, if_pos hv, sound v hv⟩⟩
  | valueAndCount W f =>
    obtain ⟨v, n, rfl⟩ := List.length_eq_two.mp hlength
    obtain ⟨a, ops, rfl, ha, hops⟩ := List.map_eq_cons_iff.mp hvals
    obtain ⟨b, rfl, hb⟩ := List.map_eq_singleton_iff.mp hops
    simp only [OperandShape.limits, List.zip_cons_cons, List.zip_nil_left, List.mem_cons, List.not_mem_nil, or_false,
      exists_eq_or_imp, exists_eq_left, forall_eq_or_imp, forall_eq, assemble_valueAndCount_numbers ha hb]
    constructor
    · rintro (hv | hn)
      · exact if_neg (Nat.not_lt.mpr hv)
      · rw [if_neg (Nat.not_lt.mpr hn), ite_self]
    · rintro ⟨hv, hn⟩
      exact ⟨_, by rw [if_pos hv, if_pos hn], .of_toNat hv (sound _ n hn)⟩

/-- Settles O9: a line is a row's mnemonic with operand texts, and every row of the table is sound. -/
theorem assembledCommandsAreWellFormed : Obligations.AssembledCommandsAreWellFormed := by
  unfold Obligations.AssembledCommandsAreWellFormed
  refine fun line => ⟨fun i h => ?_, fun i vals hname hvals hlength => ?_⟩
  · obtain ⟨row, hrow, hname, hassemble⟩ := assembleCommand_command (assembleLine_command h)
    obtain ⟨vals, built, hvals⟩ := (assemblyTable_sound hrow).of_command hassemble
    exact ⟨built.wellFormed, by rw [hname, built.mnemonic], by rw [hvals, built.operands]⟩
  · obtain ⟨row, hrow, hmnemonic, hlimits⟩ := exists_row_of_mnemonic i
    have nonempty : lineMnemonic line ≠ [] := by
      rw [hname, ← hmnemonic]
      exact assemblyTable_mnemonic_ne_nil row hrow
    rw [assembleLine_of_body (lineBody_ne_nil nonempty), hname, ← hmnemonic, assembleCommand_row hrow]
    rw [← hlimits] at hlength ⊢
    obtain ⟨out, inRange⟩ := (assemblyTable_sound hrow).of_numbers hvals hlength
    refine ⟨out, fun below => ?_⟩
    obtain ⟨j, hj, built⟩ := inRange below
    exact ⟨j, hj, built.mnemonic, built.operands⟩

end Sys2Proof.Machine
end

section
/-! The shift-and-mask unit as numbers and bit by bit (spec/40_mask_shift.md): the value of `Mask` and `Trunc`, the closed
forms of `Split` and `Gather`, and that gathering undoes splitting. -/

namespace Sys2Proof.Machine

/-! ### `Mask` and `Trunc` -/

theorem mask_toNat {n W : Nat} (h : n ≤ W) : (mask n W h).toNat = 2 ^ n - 1 := by
  have fitsWidth : 2 ^ n - 1 < 2 ^ W := Nat.sub_one_lt_of_le (Nat.two_pow_pos n) (Nat.pow_le_pow_right (by decide) h)
  rw [mask, BitVec.toNat_ofNat, Nat.mod_eq_of_lt fitsWidth]

/-- Settles O22: the mask's number, and the bits of that number. -/
theorem maskHasLowBitsSet : Obligations.MaskHasLowBitsSet := fun n W h =>
  ⟨mask_toNat h, getLsbD_mask n W h, BitVec.eq_of_toNat_eq (by rw [mask_toNat, BitVec.toNat_allOnes])⟩

/-- In a container of at most 64 bits the widening to 64 bits cuts off nothing. -/
theorem getLsbD_trunc_of_le {W n : Nat} (value : BitVec W) (h : n ≤ W) (hW : W ≤ 64) (j : Nat) :
    (trunc value n h).getLsbD j = (decide (j < n) && value.getLsbD j) := by
  rw [getLsbD_trunc]
  by_cases inside : j < n
  · simp [inside, show j < 64 by omega]
  · simp [inside]

theorem trunc_toNat {W n : Nat} (value : BitVec W) (h : n ≤ W) (hW : W ≤ 64) :
    (trunc value n h).toNat = value.toNat % 2 ^ n :=
  Nat.eq_of_testBit_eq fun j => by
    rw [BitVec.testBit_toNat, getLsbD_trunc_of_le value h hW, Nat.testBit_mod_two_pow, BitVec.testBit_toNat]

/-- Settles O23: the bits kept, the number they make, and that a full count keeps them all. -/
theorem truncKeepsLowBits : Obligations.TruncKeepsLowBits := by
  unfold Obligations.TruncKeepsLowBits
  intro W n value h hW
  refine ⟨getLsbD_trunc_of_le value h hW, trunc_toNat value h hW, ?_⟩
  rintro rfl
  rw [trunc_toNat value h hW, Nat.mod_eq_of_lt value.isLt]

/-! ### `Split` -/

/-- The head is there exactly at an unaligned offset. -/
theorem split_fst_eq_none_iff (v : Word64) (n ofs : Nat) : (split v n ofs).1 = none ↔ ofs = 0 := by
  rcases Nat.eq_zero_or_pos ofs with rfl | unaligned
  · simp [split_fst_aligned]
  · obtain ⟨head, there, -⟩ := split_fst_unaligned v n unaligned
    simp [there, Nat.ne_of_gt unaligned]

theorem split_fst_toNat {v : Word64} {n ofs : Nat} {head : Byte} (hofs : ofs ≤ 7) (h : (split v n ofs).1 = some head) :
    head.toNat = v.toNat % 2 ^ headBits ofs * 2 ^ ofs := by
  rcases Nat.eq_zero_or_pos ofs with rfl | unaligned
  · cases h
  · obtain ⟨head', there, bits⟩ := split_fst_unaligned v n unaligned
    obtain rfl : head' = head := Option.some.inj (there.symm.trans h)
    refine Nat.eq_of_testBit_eq fun j => ?_
    have below8 : (decide (j < 8) && !decide (j < ofs)) = (decide (ofs ≤ j) && decide (j - ofs < 8 - ofs)) := by
      rw [Bool.eq_iff_iff]; simp; omega
    rw [BitVec.testBit_toNat, bits, Nat.testBit_mul_two_pow, Nat.testBit_mod_two_pow, BitVec.testBit_toNat,
      headBits, if_pos unaligned, below8, Bool.and_assoc]

/-- The head and the tail's bytes have room for all `n` bits. -/
theorem le_headBits_add (n ofs : Nat) : n ≤ headBits ofs + 8 * ((n - headBits ofs + 7) / 8) := by omega

/-- Above its low `n` bits a value has nothing left. -/
theorem ushiftRight_eq_zero_of_toNat_lt {v : Word64} {n k : Nat} (hv : v.toNat < 2 ^ n) (hk : n ≤ k) : v >>> k = 0 :=
  (ushiftRight_eq_zero_iff v k).mpr (Nat.lt_of_lt_of_le hv (Nat.pow_le_pow_right (by decide) hk))

/-- The last tail byte holds only the bits still to be written: the rest of it is 0. -/
theorem split_snd_getLast?_lt {v : Word64} {n ofs : Nat} {b : Byte} (hv : v.toNat < 2 ^ n)
    (h : (split v n ofs).2.getLast? = some b) :
    b.toNat < 2 ^ (n - headBits ofs - 8 * ((n - headBits ofs + 7) / 8 - 1)) := by
  rw [List.getLast?_eq_getElem?, split_snd_length] at h
  have nonempty : 0 < (n - headBits ofs + 7) / 8 := by
    by_contra empty
    have := (List.getElem?_eq_some_iff.mp h).1
    rw [split_snd_length] at this
    omega
  rw [split_snd_getElem? v n ofs _ (Nat.sub_lt nonempty Nat.one_pos), Option.some.injEq] at h
  subst h
  refine toNat_lt_of_getLsbD _ _ fun j unused => ?_
  rw [BitVec.getLsbD_setWidth, BitVec.getLsbD_ushiftRight, getLsbD_of_toNat_lt v hv (by omega), Bool.and_false]

/-- Settles O24: the head as a number, the tail byte by byte, and that the bytes have room for all of `v`. -/
theorem splitClosedForm : Obligations.SplitClosedForm := by
  unfold Obligations.SplitClosedForm
  intro v n ofs hv hn hofs
  have length := split_snd_length v n ofs
  exact ⟨split_fst_eq_none_iff v n ofs, fun _ => split_fst_toNat hofs, length, by omega, split_snd_getElem? v n ofs,
    fun _ => split_snd_getLast?_lt hv, ushiftRight_eq_zero_of_toNat_lt hv (le_headBits_add n ofs)⟩

/-! ### `Gather` -/

/-- Settles O25: the bits of the value, of which those from `n` up are 0. -/
theorem gatherClosedForm : Obligations.GatherClosedForm := by
  unfold Obligations.GatherClosedForm
  intro B ofs n hofs h1 hn enough
  obtain ⟨r, value, bits, above⟩ := gather_spec B ofs n hofs h1 hn enough
  exact ⟨r, value, bits, above, toNat_lt_of_getLsbD r n above⟩

/-! ### `Gather` after `Split` -/

/-- Bit `k` of the tail's bytes is the value's bit `k` past those of the head. -/
theorem split_snd_bit (v : Word64) {n ofs k : Nat} (hk : headBits ofs + k < n) :
    ((split v n ofs).2[k / 8]?).map (fun b => b.getLsbD (k % 8)) = some (v.getLsbD (headBits ofs + k)) := by
  have place : headBits ofs + 8 * (k / 8) + k % 8 = headBits ofs + k := by omega
  rw [split_snd_getElem? v n ofs (k / 8) (by omega), Option.map_some, BitVec.getLsbD_setWidth,
    BitVec.getLsbD_ushiftRight, place, decide_eq_true (Nat.mod_lt k (by decide)), Bool.true_and]

/-- Bytes that carry the bits of `v` from bit `ofs` up give `v` back when gathered. -/
theorem gather_eq_of_bits {v : Word64} {n ofs : Nat} {B : List Byte} (hofs : ofs ≤ 7) (h1 : 1 ≤ n) (hn : n ≤ 64)
    (hv : v.toNat < 2 ^ n) (enough : (ofs + n + 7) / 8 ≤ B.length)
    (carried : ∀ j < n, (B[(ofs + j) / 8]?).map (fun b => b.getLsbD ((ofs + j) % 8)) = some (v.getLsbD j)) :
    gather B ofs n = some v := by
  obtain ⟨r, value, bits, above⟩ := gather_spec B ofs n hofs h1 hn enough
  rw [value, Option.some.injEq]
  refine BitVec.eq_of_getLsbD_eq fun j _ => ?_
  rcases Nat.lt_or_ge j n with inside | outside
  · exact Option.some.inj ((bits j inside).symm.trans (carried j inside))
  · rw [above j outside, getLsbD_of_toNat_lt v hv outside]

/-- Settles O26: the bytes that `Split` makes carry the value's bits from the offset up. At an aligned offset they are the
tail; else the first is the partial byte, clean from the offset up, with the head ORed in. -/
theorem gatherAfterSplitIsIdentity : Obligations.GatherAfterSplitIsIdentity := by
  unfold Obligations.GatherAfterSplitIsIdentity
  intro v n ofs b0 h1 hn hv hofs clean
  have length := split_snd_length v n ofs
  rcases Nat.eq_zero_or_pos ofs with rfl | unaligned
  · have noHead : headBits 0 = 0 := rfl
    refine gather_eq_of_bits hofs h1 hn hv (show _ ≤ (split v n 0).2.length by omega) fun j inside => ?_
    simpa [noHead, split_fst_aligned] using split_snd_bit v (n := n) (ofs := 0) (k := j) (by omega)
  · obtain ⟨head, there, bits⟩ := split_fst_unaligned v n unaligned
    have headSize : headBits ofs = 8 - ofs := if_pos unaligned
    rw [there]
    refine gather_eq_of_bits hofs h1 hn hv (by rw [List.length_cons]; omega) fun j inside => ?_
    rcases Nat.lt_or_ge j (8 - ofs) with inHead | inTail
    · rw [show (ofs + j) / 8 = 0 by omega, show (ofs + j) % 8 = ofs + j by omega]
      rw [List.getElem?_cons_zero, Option.map_some, BitVec.getLsbD_or, clean _ (Nat.le_add_right ofs j), bits]
      simp [show ofs + j < 8 by omega]
    · have tailBit := split_snd_bit v (n := n) (ofs := ofs) (k := ofs + j - 8) (by omega)
      rw [show headBits ofs + (ofs + j - 8) = j by omega, show (ofs + j - 8) % 8 = (ofs + j) % 8 by omega] at tailBit
      rw [show (ofs + j) / 8 = (ofs + j - 8) / 8 + 1 by omega]
      exact tailBit

end Sys2Proof.Machine
end

section
/-! The round trip (spec/95_test_vectors.md section 4): writes lay the masked values end to end in `WBUF`, `RNEW.W` copies
them, and reads of the same counts find each value at the cursor. The reads are direct ones, or sticky ones with the latch
clear: a proof uses of them only that they answer what `ReadBits` gives (`ReadForm`). -/

namespace Sys2Proof.Machine

variable {s t : State} {fs : List WriteForm}

/-! ### Values laid end to end -/

/-- The value of a write masked to its count, as the 64 bits a read of that count answers (R43, R94). -/
def WriteForm.masked (f : WriteForm) : Word64 := BitVec.ofNat 64 (f.value.toNat % 2 ^ f.count)

/-- The bits that some writes lay down. -/
abbrev totalBits (fs : List WriteForm) : Nat := (fs.map (fun f => f.count)).sum

theorem totalBits_cons (f : WriteForm) (fs : List WriteForm) : totalBits (f :: fs) = f.count + totalBits fs := rfl

/-- The masked values of the writes `fs` stand in `m`, one after the other from bit `c` up (20_memory.md R43). -/
def ValuesAt (m : Memory) : (c : Nat) → List WriteForm → Prop
  | _, [] => True
  | c, f :: fs => ReadsBits m c f.count f.masked ∧ ValuesAt m (c + f.count) fs

theorem WriteForm.getLsbD_masked {f : WriteForm} (h : f.count ≤ 64) (j : Nat) :
    f.masked.getLsbD j = (decide (j < f.count) && f.value.getLsbD j) := by
  rw [WriteForm.masked, BitVec.getLsbD_ofNat, Nat.testBit_mod_two_pow, BitVec.testBit_toNat]
  by_cases inside : j < f.count
  · simp [inside, show j < 64 by omega]
  · simp [inside]

/-! ### The writes -/

theorem fits_mono {capacity : Option Nat} {len len' : Nat} (h : len ≤ len') (room : fits capacity len' = true) :
    fits capacity len = true := by
  cases capacity with
  | none => rfl
  | some cap => exact decide_eq_true (Nat.le_trans h (of_decide_eq_true room))

/-- Writes whose bits all fit complete: each leaves the room that the rest of them need. -/
theorem runCommands_writes_complete {ws : List Instr} (hI : s.Inv) (forms : ws.map writeForm = fs.map some)
    (inWidth : ∀ f ∈ fs, f.count ≤ f.width) (cursor : s.wcur.toNat + totalBits fs < 2 ^ 64)
    (room : fits s.wcap (bytesFor (s.wcur.toNat + totalBits fs)) = true) : ∃ t, runCommands ws s = .next t := by
  induction ws generalizing s fs with
  | nil => exact ⟨s, rfl⟩
  | cons w ws ih =>
    obtain _ | ⟨f, fs⟩ := fs
    · cases forms
    · obtain ⟨form, forms⟩ : writeForm w = some f ∧ ws.map writeForm = fs.map some := by simpa using forms
      obtain ⟨fWidth, inWidth⟩ := List.forall_mem_cons.mp inWidth
      rw [totalBits_cons, ← Nat.add_assoc] at cursor room
      have roomNow : bytesFor (s.wcur.toNat + f.count) ≤ bytesFor (s.wcur.toNat + f.count + totalBits fs) := by
        simp only [bytesFor_def]; omega
      obtain ⟨s', first⟩ := writeBits_completes f.value hI fWidth (Nat.lt_of_le_of_lt (Nat.le_add_right _ _) cursor)
        (fits_mono roomNow room)
      obtain ⟨-, ⟨wcap, -, -⟩, -, -, -, -, advanced⟩ := writeBits_frame first
      rw [← exec_of_writeForm form] at first
      rw [← advanced] at cursor room
      rw [← wcap] at room
      rw [runCommands_cons first]
      exact ih (exec_keeps_inv hI first) forms inWidth cursor room

/-- What completed writes do: one empty answer each, and the values laid end to end from the cursor up, over what stood
below it. -/
theorem runCommands_writes_valuesAt {ws : List Instr} (hI : s.Inv) (forms : ws.map writeForm = fs.map some)
    (h : runCommands ws s = .next t) :
    t.outputs = s.outputs ++ List.replicate ws.length ⟨⟨none, 0⟩, none⟩ ∧
      (∀ p < s.wcur.toNat, t.wbuf.bit p = s.wbuf.bit p) ∧ ValuesAt t.wbuf s.wcur.toNat fs := by
  induction ws generalizing s fs with
  | nil =>
    obtain rfl : fs = [] := by simpa using forms.symm
    cases h
    exact ⟨by simp, fun _ _ => rfl, trivial⟩
  | cons w ws ih =>
    obtain _ | ⟨f, fs⟩ := fs
    · cases forms
    · obtain ⟨form, forms⟩ : writeForm w = some f ∧ ws.map writeForm = fs.map some := by simpa using forms
      obtain ⟨s', first, rest⟩ := runCommands_cons_inv h
      have hI' := exec_keeps_inv hI first
      have width := writeForm_width form
      rw [exec_of_writeForm form] at first
      obtain ⟨-, -, answer, inWidth, -, -, advanced⟩ := writeBits_frame first
      obtain ⟨wlen, -, -, kept, written⟩ := writeBits_memory hI width first
      obtain ⟨answers, keptByRest, values⟩ := ih hI' forms rest
      rw [advanced] at keptByRest values
      refine ⟨?outputs, fun p below => ?below, ⟨fun j inside => ?value, fun j outside => ?above⟩, values⟩
      case outputs => rw [answers, answer, List.length_cons, List.replicate_succ, List.append_assoc]; rfl
      case below => rw [keptByRest p (by omega), kept p below]
      case value =>
        rw [keptByRest _ (by omega), written _ (by omega) (by omega), Nat.add_sub_cancel_left,
          WriteForm.getLsbD_masked (Nat.le_trans inWidth width)]
      case above =>
        rw [WriteForm.getLsbD_masked (Nat.le_trans inWidth width), decide_eq_false (Nat.not_lt.mpr outside),
          Bool.false_and]

/-! ### The reads -/

/-- Where the source has the bits of `v` at the cursor, `ReadBits` gives `v`. -/
theorem readBits_of_readsBits {W n : Nat} {v : Word64} (holds : s.rsrc.holds s.rlen) (hW : W ≤ 64) (inWidth : n ≤ W)
    (room : s.readerCanAdvance n) (inside : s.rcur.toNat + n ≤ 8 * s.rlen) (bits : ReadsBits s.rsrc s.rcur.toNat n v) :
    readBits W n s = .value v := by
  obtain ⟨wide, -⟩ | ⟨rfl, value⟩ | ⟨-, -, outside, -⟩ | ⟨-, -, -, r, found, ⟨-, value⟩ | ⟨noRoom, -⟩⟩ :=
    readBits_spec holds hW n
  · omega
  · have zero : v = 0 := BitVec.eq_of_getLsbD_eq fun j _ => by simpa using bits.2 j (Nat.zero_le j)
    rw [value, zero]
  · omega
  · rw [value, found.unique bits]
  · exact absurd room noRoom

/-- `form` gives the width and count of read commands that, on a bound reader with no error stored, answer what `ReadBits`
gives and advance the cursor. -/
structure ReadForm (form : Instr → Option (Nat × Nat)) : Prop where
  width_le : ∀ {i W n}, form i = some (W, n) → W ≤ 64
  exec_value : ∀ {i W n} {s : State} {v : Word64}, form i = some (W, n) → s.rbound = true → s.serr = none →
    readBits W n s = .value v → exec i s = .next ((s.advanceReader n).respond none v)

theorem readForm_directForm : ReadForm directForm where
  width_le := directForm_width
  exec_value form bound _ value := by simp [exec_of_directForm form, directRead, bound, value]

theorem readForm_stickyForm : ReadForm stickyForm where
  width_le := stickyForm_width
  exec_value form bound clear value := by simp [exec_of_stickyForm form, stickyRead, bound, clear, value]

/-- A bound reader with no error stored, whose source is short enough for its length and has the values of `fs` at the
cursor. -/
structure State.ReadyFor (s : State) (fs : List WriteForm) : Prop where
  bound : s.rbound = true
  clear : s.serr = none
  holds : s.rsrc.holds s.rlen
  short : s.rlen < Config.sourceLimit
  inside : s.rcur.toNat + totalBits fs ≤ 8 * s.rlen
  values : ValuesAt s.rsrc s.rcur.toNat fs

theorem State.ReadyFor.head {f : WriteForm} {W : Nat} (h : s.ReadyFor (f :: fs)) (hW : W ≤ 64) (inWidth : f.count ≤ W) :
    readBits W f.count s = .value f.masked ∧ s.readerCanAdvance f.count := by
  obtain ⟨-, -, holds, short, inside, bits, -⟩ := h
  rw [totalBits_cons] at inside
  have here : s.rcur.toNat + f.count ≤ 8 * s.rlen := by omega
  have room := readerCanAdvance_of_le short here
  exact ⟨readBits_of_readsBits holds hW inWidth room here bits, room⟩

theorem State.ReadyFor.tail {f : WriteForm} (h : s.ReadyFor (f :: fs)) (room : s.readerCanAdvance f.count) :
    ((s.advanceReader f.count).respond none f.masked).ReadyFor fs := by
  obtain ⟨bound, clear, holds, short, inside, -, values⟩ := h
  rw [totalBits_cons] at inside
  refine ⟨bound, clear, holds, short, ?_, ?_⟩ <;> rw [State.respond_rcur, State.advanceReader_toNat room]
  · exact (Nat.add_assoc ..).trans_le inside
  · exact values

/-- Reads of the same counts answer the values, one after the other, and end past the last. -/
theorem runCommands_reads {form : Instr → Option (Nat × Nat)} (isRead : ReadForm form) {rs : List Instr}
    {widths : List Nat} (ready : s.ReadyFor fs) (length : widths.length = fs.length)
    (forms : rs.map form = (List.zipWith (fun (f : WriteForm) W => (W, f.count)) fs widths).map some)
    (inWidth : ∀ p ∈ fs.zip widths, p.1.count ≤ p.2) :
    ∃ t, runCommands rs s = .next t ∧ t.outputs = s.outputs ++ fs.map (fun f => ⟨⟨none, f.masked⟩, none⟩) ∧
      t.rcur.toNat = s.rcur.toNat + totalBits fs ∧ t.wcur = s.wcur ∧ t.rbound = true ∧ t.serr = none := by
  induction fs generalizing s rs widths with
  | nil =>
    obtain rfl : rs = [] := by simpa using forms
    exact ⟨s, rfl, by simp, rfl, rfl, ready.bound, ready.clear⟩
  | cons f fs ih =>
    obtain _ | ⟨W, widths⟩ := widths
    · cases length
    obtain _ | ⟨r, rs⟩ := rs
    · cases forms
    obtain ⟨rForm, forms⟩ : form r = some (W, f.count) ∧ rs.map form =
      (List.zipWith (fun (f : WriteForm) W => (W, f.count)) fs widths).map some := by simpa using forms
    obtain ⟨rWidth, inWidth⟩ := List.forall_mem_cons.mp inWidth
    obtain ⟨value, room⟩ := ready.head (isRead.width_le rForm) rWidth
    have first := isRead.exec_value rForm ready.bound ready.clear value
    obtain ⟨t, run, outputs, rcur, wcur, last⟩ := ih (ready.tail room) (Nat.succ.inj length) forms inWidth
    refine ⟨t, by rw [runCommands_cons first, run], by simpa using outputs, ?_, wcur, last⟩
    rw [rcur, State.respond_rcur, State.advanceReader_toNat room, totalBits_cons, Nat.add_assoc]

/-! ### The whole trip -/

/-- `RNEW.W` makes the reader ready for what was written: its copy is the whole buffer, from bit 0 (R131). -/
theorem readyFor_rnewW (hI : s.Inv) (short : s.wlen < Config.sourceLimit) (written : s.wcur.toNat = totalBits fs)
    (values : ValuesAt s.wbuf 0 fs) : ((s.bindReader s.wbuf s.wlen).respond none 0).ReadyFor fs := by
  have copy : (s.bindReader s.wbuf s.wlen).rsrc = s.wbuf := State.rsrc_bindReader hI.wbufHolds short
  have whole : (s.bindReader s.wbuf s.wlen).rlen = s.wlen := State.boundLength_of_lt short
  refine ⟨rfl, rfl, s.holds_bindReader hI.wbufHolds, s.boundLength_lt _, ?inside, ?values⟩
  case inside =>
    have length := hI.length
    rw [written, bytesFor_def] at length
    show 0 + totalBits fs ≤ 8 * (s.bindReader s.wbuf s.wlen).rlen
    omega
  case values =>
    show ValuesAt (s.bindReader s.wbuf s.wlen).rsrc 0 fs
    rwa [copy]

/-- The round trip with reads of either kind: the commands complete, the answers are the values masked to their counts, and
both cursors end at the sum of the counts, with the reader bound and no error stored. -/
theorem roundTrip {form : Instr → Option (Nat × Nat)} (isRead : ReadForm form) {ws rs : List Instr} {widths : List Nat}
    (hI : s.Inv) (wForms : ws.map writeForm = fs.map some) (wWidth : ∀ f ∈ fs, f.count ≤ f.width)
    (rForms : rs.map form = (List.zipWith (fun (f : WriteForm) W => (W, f.count)) fs widths).map some)
    (length : widths.length = fs.length) (rWidth : ∀ p ∈ fs.zip widths, p.1.count ≤ p.2)
    (top : totalBits fs ≤ 2 ^ 64 - 8) (room : fits s.wcap (bytesFor (totalBits fs)) = true) :
    ∃ t, runCommands (.wnew :: ws ++ .rnewW :: rs) s = .next t ∧
      t.outputs = s.outputs ++ List.replicate (ws.length + 2) ⟨⟨none, 0⟩, none⟩ ++
        fs.map (fun f => ⟨⟨none, f.masked⟩, none⟩) ∧
      t.rcur = t.wcur ∧ t.rcur.toNat = totalBits fs ∧ t.rbound = true ∧ t.serr = none := by
  obtain ⟨s₀, created, start, wcap, answer₀⟩ : ∃ s₀, exec .wnew s = .next s₀ ∧ s₀.wcur.toNat = 0 ∧ s₀.wcap = s.wcap ∧
    s₀.outputs = s.outputs ++ [⟨⟨none, 0⟩, none⟩] := ⟨_, rfl, rfl, rfl, rfl⟩
  have hI₀ := exec_keeps_inv hI created
  obtain ⟨s₁, writes⟩ := runCommands_writes_complete hI₀ wForms wWidth (by omega)
    (by rwa [start, Nat.zero_add, wcap])
  have hI₁ := runCommands_keeps_inv hI₀ writes
  obtain ⟨answers₁, -, values⟩ := runCommands_writes_valuesAt hI₀ wForms writes
  have wcur : s₁.wcur.toNat = s₀.wcur.toNat + totalBits fs := runCommands_writes_wcur wForms writes
  rw [start] at values
  rw [start, Nat.zero_add] at wcur
  have short : s₁.wlen < Config.sourceLimit := by
    show s₁.wlen < 2 ^ 61
    rw [hI₁.length, bytesFor_def]
    omega
  obtain ⟨t, reads, answers, rcur, sameWcur, bound, clear⟩ :=
    runCommands_reads isRead (readyFor_rnewW hI₁ short wcur values) length rForms rWidth
  have rcurEnd : t.rcur.toNat = totalBits fs := rcur.trans (Nat.zero_add _)
  have bind : exec .rnewW s₁ = .next ((s₁.bindReader s₁.wbuf s₁.wlen).respond none 0) := rfl
  refine ⟨t, ?run, ?outputs, BitVec.eq_of_toNat_eq ?cursors, rcurEnd, bound, clear⟩
  case run => rw [List.cons_append, runCommands_cons created, runCommands_append writes, runCommands_cons bind, reads]
  case outputs =>
    rw [answers, State.respond_outputs, State.bindReader_outputs, answers₁, answer₀, List.replicate_succ,
      List.replicate_succ']
    simp
  case cursors => rw [rcurEnd, sameWcur]; exact wcur.symm

/-- Settles O48: the round trip with direct reads. -/
theorem directRoundTrip : Obligations.DirectRoundTrip := by
  unfold Obligations.DirectRoundTrip
  intro ws rs fs widths s hI wForms wWidth rForms length rWidth top room
  obtain ⟨t, run, outputs, cursors, rcur, -, -⟩ :=
    roundTrip readForm_directForm hI wForms wWidth rForms length rWidth top room
  exact ⟨t, run, outputs, cursors, rcur⟩

end Sys2Proof.Machine
end

section
/-! The writer's commands (spec/41_writer.md): the empty writer, where a write is refused or stuck, what it leaves where it
is neither, and the bytes that `WBYTES` exposes. -/

namespace Sys2Proof.Machine

/-! ### `WNEW` -/

/-- Settles O27: the word of R74, and the fields of the state that `WNEW` answers. -/
theorem wnewEmptiesTheWriter : Obligations.WnewEmptiesTheWriter :=
  ⟨by decide, fun s => ⟨_, rfl, rfl, rfl, rfl, s.writerFrame_wnew.reader, s.writerFrame_wnew.host, rfl⟩⟩

section
variable {W n : Nat} {value : BitVec W} {s t : State}

/-! ### Writes that do not complete -/

theorem writeBits_of_width_lt (tooBig : W < n) : writeBits W value n s = .refused .writeCountTooBig :=
  dif_neg (Nat.not_le.mpr tooBig)

theorem writeBits_of_overflow (inWidth : n ≤ W) (top : 2 ^ 64 ≤ s.wcur.toNat + n) :
    writeBits W value n s = .refused .writeCursorOverflow := by
  rw [writeBits, dif_pos inWidth, if_neg (Nat.not_lt.mpr top)]

/-- A write is stuck just where it passes both refusals and its bytes do not fit (R120). -/
theorem writeBits_stuck_iff : writeBits W value n s = .fault .stuckAtCapacity ↔
    n ≤ W ∧ s.writerCanAdvance n ∧ fits s.wcap (bytesFor (s.wcur.toNat + n)) = false := by
  constructor
  · intro stuck
    obtain ⟨-, e⟩ | ⟨-, -, e⟩ | ⟨inWidth, room, full, -⟩ | ⟨_, -, -, ⟨-, e⟩ | ⟨_, -, e⟩⟩ :=
      writeBits_cases W value n s
    case inr.inr.inl => exact ⟨inWidth, room, full⟩
    all_goals cases stuck.symm.trans e
  · rintro ⟨inWidth, room, full⟩
    simp [writeBits, dif_pos inWidth, if_pos room, full]

/-! ### Writes of no bits -/

/-- A state that differs from `s` in no more than an answer is `s` with that answer. -/
theorem State.eq_respond {status : Option ErrorKind} {data : Word64} (writer : s.sameWriter t) (reader : s.sameReader t)
    (host : s.sameHost t) (draws : t.freeDraws = s.freeDraws) (answer : s.answered t status data) :
    t = s.respond status data := by
  obtain ⟨wcur, wlen, wbuf⟩ := writer
  obtain ⟨rcur, ⟨rlen, rsrc, rbound⟩, serr⟩ := reader
  obtain ⟨wcap, xsrc, inputs⟩ := host
  cases t
  subst_vars
  rfl

/-- A write of no bits completes where the invariant holds, whose length already fits `WCAP`, and adds only its answer. -/
theorem writeBits_zero (hI : s.Inv) (hW : W ≤ 64) : writeBits W value 0 s = .next (s.respond none 0) := by
  obtain ⟨t, h⟩ := writeBits_completes value hI (Nat.zero_le W) s.wcur.isLt
    (by rw [Nat.add_zero, ← hI.length]; exact hI.capacity)
  obtain ⟨reader, host, answer, -, -, -, wcur⟩ := writeBits_frame h
  obtain ⟨wlen, -⟩ := writeBits_memory hI hW h
  have writer : s.sameWriter t := ⟨BitVec.eq_of_toNat_eq wcur, by rw [wlen, hI.length, bytesFor_def, Nat.add_zero],
    writeBits_zero_wbuf hI hW h⟩
  rw [h, State.eq_respond writer reader host (writeBits_freeDraws h) answer]

end

/-- Settles O30: the first two guards of `WriteBits`. -/
theorem writesRefused : Obligations.WritesRefused := by
  unfold Obligations.WritesRefused
  intro i f s form
  rw [exec_of_writeForm form]
  exact ⟨writeBits_of_width_lt, writeBits_of_overflow⟩

/-- Settles O31: the third guard of `WriteBits`, which an unbounded capacity always passes. -/
theorem writeStuckAtCapacity : Obligations.WriteStuckAtCapacity := by
  unfold Obligations.WriteStuckAtCapacity
  intro i f s form
  rw [exec_of_writeForm form, writeBits_stuck_iff]
  refine ⟨fun cap capacity inWidth room tooLong => ⟨inWidth, room, ?_⟩, ?_⟩
  · rw [capacity]
    exact decide_eq_false (Nat.not_le.mpr tooLong)
  · intro unbounded stuck
    obtain ⟨-, -, full⟩ := writeBits_stuck_iff.mp stuck
    rw [unbounded] at full
    cases full

/-- Settles O32: the four commands are `WriteBits` of 0 bits. -/
theorem zeroWidthWriteChangesNothing : Obligations.ZeroWidthWriteChangesNothing := fun _ hI =>
  ⟨fun _ => writeBits_zero hI (by decide), fun _ => writeBits_zero hI (by decide),
    fun _ => writeBits_zero hI (by decide), fun _ => writeBits_zero hI (by decide)⟩

/-! ### Writes that complete -/

/-- Settles O28: the write completes, `writeBits_memory` gives the length and the bits, and the byte counts follow from the
length, a count being at most 64. -/
theorem writePostState : Obligations.WritePostState := by
  unfold Obligations.WritePostState
  intro i f s inWidth form hI room capacity
  have hW := writeForm_width form
  obtain ⟨t, h⟩ := writeBits_completes f.value hI inWidth room capacity
  obtain ⟨-, -, answer, -, -, -, wcur⟩ := writeBits_frame h
  obtain ⟨wlen, holds, -, below, above⟩ := writeBits_memory hI hW h
  have oldLength : s.wlen = (s.wcur.toNat + 7) / 8 := hI.length
  refine ⟨t, by rw [exec_of_writeForm form, h], wcur, wlen, fun j inside => ?written, below, fun p past inside => ?padding,
    ?appended, ?atMost8, ?touched, holds, answer⟩
  case written =>
    rw [above _ (by omega) (by omega), Nat.add_sub_cancel_left, getLsbD_trunc_of_le _ inWidth hW]
  case padding =>
    have pastCount : ¬ p - s.wcur.toNat < f.count := by omega
    simp [above p (by omega) inside, pastCount]
  case appended => omega
  case atMost8 => omega
  case touched => rw [byteIndex]; omega

/-! ### `WBYTES` -/

/-- Where `WBUF` holds exactly `WLEN` bytes, those below `WLEN` are all of them. -/
theorem exec_wbytes {s : State} (hI : s.Inv) :
    exec .wbytes s = .next (s.respondBytes (BitVec.ofNat 64 s.wlen) s.wbuf.bytes) := by
  rw [← hI.wbufHolds.below_eq]
  rfl

theorem State.Inv.bytes_length {s : State} (hI : s.Inv) : s.wbuf.bytes.length = s.wlen := by
  rw [Memory.bytes_length, hI.wbufHolds.length_eq]

/-- Settles O33: the word of R74, and the bytes of a buffer that holds exactly `WLEN` of them. -/
theorem wbytesExposesTheBytes : Obligations.WbytesExposesTheBytes :=
  ⟨by decide, fun s hI => ⟨s.wbuf.bytes, exec_wbytes hI, hI.bytes_length, fun a _ => (hI.wbufHolds.read_eq a).symm⟩⟩

end Sys2Proof.Machine
end

section
/-! The bits that stay once they are written (spec/41_writer.md R122): no command but `WNEW` takes the cursor back or changes
a bit below it, so of a byte that was exposed at most the bits that were still padding can change, from 0 to 1. -/

namespace Sys2Proof.Machine

variable {s s' t : State}

/-- From `s` to `t` the writer only went on: its cursor is not taken back, and every bit below where it stood is kept. -/
structure State.KeepsWritten (s t : State) : Prop where
  wcur_le : s.wcur.toNat ≤ t.wcur.toNat
  bits : ∀ p < s.wcur.toNat, t.wbuf.bit p = s.wbuf.bit p

theorem State.KeepsWritten.of_sameWriter (h : s.sameWriter t) : s.KeepsWritten t := by
  obtain ⟨wcur, -, wbuf⟩ := h
  exact ⟨by rw [wcur], fun _ _ => by rw [wbuf]⟩

theorem State.KeepsWritten.trans (first : s.KeepsWritten s') (rest : s'.KeepsWritten t) : s.KeepsWritten t where
  wcur_le := first.wcur_le.trans rest.wcur_le
  bits p written := (rest.bits p (written.trans_le first.wcur_le)).trans (first.bits p written)

theorem exec_keepsWritten {i : Instr} (hI : s.Inv) (hne : i ≠ .wnew) (h : exec i s = .next t) : s.KeepsWritten t := by
  obtain ⟨hi, -, -⟩ | ⟨-, -, frame⟩ | ⟨-, source, len, rfl, -⟩ := exec_cases h
  · refine ⟨exec_wcur_le hi hne h, ?_⟩
    obtain rfl | rfl | isWrite := hi
    · exact absurd rfl hne
    · cases h; exact fun _ _ => rfl
    · obtain ⟨f, form⟩ := Option.isSome_iff_exists.mp isWrite
      rw [exec_of_writeForm form] at h
      obtain ⟨-, -, -, below, -⟩ := writeBits_memory hI (writeForm_width form) h
      exact below
  · exact .of_sameWriter frame.writer
  · exact .of_sameWriter ⟨rfl, rfl, rfl⟩

theorem runCommands_keepsWritten {is : List Instr} (hI : s.Inv) (noNew : .wnew ∉ is) (h : runCommands is s = .next t) :
    s.KeepsWritten t := by
  induction is generalizing s with
  | nil => cases h; exact .of_sameWriter ⟨rfl, rfl, rfl⟩
  | cons i is ih =>
    obtain ⟨s', first, rest⟩ := runCommands_cons_inv h
    obtain ⟨hne, noNew⟩ := not_or.mp (List.mem_cons.not.mp noNew)
    exact (exec_keepsWritten hI (Ne.symm hne) first).trans (ih (exec_keeps_inv hI first) noNew rest)

theorem State.KeepsWritten.wlen_le (h : s.KeepsWritten t) (hI : s.Inv) (hI' : t.Inv) : s.wlen ≤ t.wlen := by
  have wcur_le := h.wcur_le
  rw [hI.length, hI'.length, bytesFor_def, bytesFor_def]
  omega

/-- A byte that was there is there still, with bits ORed in at most where padding was: its bits below the cursor are kept,
and those above it were 0 (R26). -/
theorem State.KeepsWritten.read_or (h : s.KeepsWritten t) (hI : s.Inv) (hI' : t.Inv) {a : Nat} {b : Byte}
    (read : s.wbuf.read a = some b) :
    ∃ x : Byte, t.wbuf.read a = some (b ||| x) ∧ ∀ j < 8, 8 * a + j < s.wcur.toNat → x.getLsbD j = false := by
  have inside : a < s.wlen := by simpa [read] using hI.wbufHolds.isSome_read a
  obtain ⟨b', read'⟩ := hI'.wbufHolds.read_some (inside.trans_le (h.wlen_le hI hI'))
  have kept : ∀ j < 8, 8 * a + j < s.wcur.toNat → b'.getLsbD j = b.getLsbD j := fun j hj written => by
    simpa [Memory.bit_of_read read hj, Memory.bit_of_read read' hj] using h.bits _ written
  have padding : ∀ j < 8, s.wcur.toNat ≤ 8 * a + j → b.getLsbD j = false := fun j hj above => by
    simpa [Memory.bit_of_read read hj] using hI.padding (8 * a + j) (by omega) above
  refine ⟨b' ^^^ b, ?_, fun j hj written => by simp [kept j hj written]⟩
  rw [read']
  refine congrArg some (BitVec.eq_of_getLsbD_eq fun j hj => ?_)
  rw [BitVec.getLsbD_or, BitVec.getLsbD_xor]
  rcases Nat.lt_or_ge (8 * a + j) s.wcur.toNat with written | above
  · simp [kept j hj written]
  · simp [padding j hj above]

/-- A byte that was wholly written is unchanged. -/
theorem State.KeepsWritten.read_eq (h : s.KeepsWritten t) (hI : s.Inv) (hI' : t.Inv) {a : Nat}
    (written : 8 * (a + 1) ≤ s.wcur.toNat) : t.wbuf.read a = s.wbuf.read a := by
  obtain ⟨b, read⟩ := hI.wbufHolds.read_some (a := a) (by rw [hI.length, bytesFor_def]; omega)
  obtain ⟨x, read', clear⟩ := h.read_or hI hI' read
  have nothing : x = 0 := BitVec.eq_of_getLsbD_eq fun j hj => by simpa using clear j hj (by omega)
  simp [read', read, nothing]

/-- The bytes that a `WBYTES` gave are those of `WBUF`. -/
theorem wbytes_bytes_eq {d : Word64} {B : List Byte} (hI : s.Inv) (h : exec .wbytes s = .next t)
    (answer : t.outputs = s.outputs ++ [⟨⟨none, d⟩, some B⟩]) : B = s.wbuf.bytes := by
  cases (exec_wbytes hI).symm.trans h
  obtain ⟨-, rfl⟩ : _ = d ∧ s.wbuf.bytes = B := by simpa using answer
  rfl

/-- Settles O34: both byte strings are the buffer's, and what was written by the first `WBYTES` is kept till the second. -/
theorem exposedBytesAreStable : Obligations.ExposedBytesAreStable := by
  unfold Obligations.ExposedBytesAreStable
  intro is s s₁ s₂ t d₁ d₂ B₁ B₂ hI noNew first answer₁ run second answer₂
  have hI₁ := exec_keeps_inv hI first
  have hI₂ := runCommands_keeps_inv hI₁ run
  have kept : s.KeepsWritten s₂ := (exec_keepsWritten hI (by simp) first).trans (runCommands_keepsWritten hI₁ noNew run)
  obtain rfl := wbytes_bytes_eq hI first answer₁
  obtain rfl := wbytes_bytes_eq hI₂ second answer₂
  have length := hI.length
  rw [bytesFor_def] at length
  simp only [hI.bytes_length, hI₂.bytes_length, ← hI.wbufHolds.read_eq, ← hI₂.wbufHolds.read_eq]
  refine ⟨kept.wlen_le hI hI₂, fun a inside => kept.read_eq hI hI₂ (by omega), fun a b last read => ⟨fun aligned => ?_, ?_⟩⟩
  · rw [kept.read_eq hI hI₂ (by omega), read]
  · obtain ⟨x, read', clear⟩ := kept.read_or hI hI₂ read
    exact ⟨x, read', fun j below => clear j (by omega) (by omega)⟩

end Sys2Proof.Machine
end

section
/-! The reader's commands (spec/42_reader.md): what a bind leaves, what is refused while no reader exists, how far a skip
goes, and the four cases of a direct read with what is left after a failed one. -/

namespace Sys2Proof.Machine

/-! ### Creating the reader -/

/-- Settles O36: the word of R74, and the bind of a memory that holds exactly the bytes of `XSRC`. -/
theorem rnewXBindsTheSource : Obligations.RnewXBindsTheSource := by
  refine ⟨by decide, fun s => ⟨_, rfl, s.boundLength_lt _, State.boundLength_of_lt, fun a => ?copy,
    s.holds_bindReader (Memory.holds_ofBytes _), rfl, rfl, rfl, ⟨rfl, rfl, rfl⟩, ⟨rfl, rfl, rfl⟩, rfl⟩⟩
  have read : (Memory.ofBytes 0 s.xsrc).read a = s.xsrc[a]? := by simp [Memory.read_ofBytes]
  rw [← read]
  exact s.read_bindReader _ _ a

/-- Settles O37: the word of R74, and the bind of the writer's buffer. -/
theorem rnewWBindsTheWritersBytes : Obligations.RnewWBindsTheWritersBytes :=
  ⟨by decide, fun s => ⟨_, rfl, s.boundLength_lt _, State.boundLength_of_lt, s.read_bindReader _ _, s.holds_bindReader,
    rfl, rfl, rfl, ⟨rfl, rfl, rfl⟩, ⟨rfl, rfl, rfl⟩, rfl⟩⟩

section
variable {W n k : Nat} {s t : State}

/-! ### Before a reader exists -/

theorem directRead_of_unbound (unbound : s.rbound = false) : directRead W n s = .refused .readerUnbound := by
  simp [directRead, unbound]

theorem stickyRead_of_unbound (unbound : s.rbound = false) : stickyRead W n s = .refused .readerUnbound := by
  simp [stickyRead, unbound]

theorem skipBits_of_unbound (unbound : s.rbound = false) : skipBits k s = .refused .readerUnbound := by
  simp [skipBits, unbound]

theorem execSerrq_of_unbound (unbound : s.rbound = false) : execSerrq s = .refused .readerUnbound := by
  simp [execSerrq, unbound]

/-- Every command that uses a reader already created is refused without one (R139). -/
theorem exec_of_unbound {i : Instr} (hi : ReaderCommand i) (unbound : s.rbound = false) :
    exec i s = .refused .readerUnbound := by
  obtain isDirect | isSticky | rfl | ⟨k, isSkip⟩ := hi
  · obtain ⟨⟨W, n⟩, form⟩ := Option.isSome_iff_exists.mp isDirect
    rw [exec_of_directForm form, directRead_of_unbound unbound]
  · obtain ⟨⟨W, n⟩, form⟩ := Option.isSome_iff_exists.mp isSticky
    rw [exec_of_stickyForm form, stickyRead_of_unbound unbound]
  · exact execSerrq_of_unbound unbound
  · rw [exec_of_skip isSkip, skipBits_of_unbound unbound]

/-! ### Skips -/

theorem skipBits_of_room (bound : s.rbound = true) (room : s.readerCanAdvance k) :
    skipBits k s = .next ((s.advanceReader k).respond none 0) := by
  rw [skipBits, if_pos bound, if_pos room]

theorem skipBits_of_overflow (bound : s.rbound = true) (top : 2 ^ 64 ≤ s.rcur.toNat + k) :
    skipBits k s = .refused .skipCursorOverflow := by
  rw [skipBits, if_pos bound, if_neg (Nat.not_lt.mpr top)]

/-! ### Direct reads -/

theorem directRead_of_value {v : Word64} (bound : s.rbound = true) (value : readBits W n s = .value v) :
    directRead W n s = .next ((s.advanceReader n).respond none v) := by
  simp [directRead, bound, value]

theorem directRead_of_raised {e : ErrorKind} (bound : s.rbound = true) (raised : readBits W n s = .raised e) :
    directRead W n s = .next (s.respond (some e) 0) := by
  simp [directRead, bound, raised, State.raiseDirect]

/-- A direct read of a bound reader completes, with the cursor and the answer of the first case of R142 that applies. -/
theorem directRead_outcome (hI : s.Inv) (bound : s.rbound = true) (hW : W ≤ 64) :
    ∃ t, directRead W n s = .next t ∧
      if W < n then t.rcur = s.rcur ∧ s.answered t (some .bitCountTooBig) 0
      else if n = 0 then t.rcur = s.rcur ∧ s.answered t none 0
      else if 8 * s.rlen < s.rcur.toNat + n then t.rcur = s.rcur ∧ s.answered t (some .unexpectedEndOfData) 0
      else t.rcur.toNat = s.rcur.toNat + n ∧ ∃ r, s.answered t none r ∧
        (∀ j < n, s.rsrc.bit (s.rcur.toNat + j) = some (r.getLsbD j)) ∧ (∀ j, n ≤ j → r.getLsbD j = false) ∧
        r.toNat < 2 ^ n := by
  obtain ⟨tooBig, raised⟩ | ⟨rfl, value⟩ | ⟨inWidth, nonzero, missing, raised⟩ |
    ⟨inWidth, nonzero, inside, r, ⟨bits, zeros⟩, ⟨room, value⟩ | ⟨noRoom, -⟩⟩ := readBits_spec hI.rsrcHolds hW n
  · refine ⟨_, directRead_of_raised bound raised, ?_⟩
    rw [if_pos tooBig]
    exact ⟨rfl, rfl⟩
  · refine ⟨_, directRead_of_value bound value, ?_⟩
    rw [if_neg (Nat.not_lt_zero W), if_pos rfl, State.advanceReader_zero]
    exact ⟨rfl, rfl⟩
  · refine ⟨_, directRead_of_raised bound raised, ?_⟩
    rw [if_neg (Nat.not_lt.mpr inWidth), if_neg nonzero, if_pos missing]
    exact ⟨rfl, rfl⟩
  · refine ⟨_, directRead_of_value bound value, ?_⟩
    rw [if_neg (Nat.not_lt.mpr inWidth), if_neg nonzero, if_neg (Nat.not_lt.mpr inside)]
    exact ⟨State.advanceReader_toNat room, r, rfl, bits, zeros, toNat_lt_of_getLsbD r n zeros⟩
  · exact absurd (readerCanAdvance_of_le hI.rlenBound inside) noRoom

/-- A direct read whose bits are all there completes without error and advances the cursor by its count. -/
theorem directRead_of_inside (hI : s.Inv) (bound : s.rbound = true) (hW : W ≤ 64) (inWidth : n ≤ W)
    (inside : s.rcur.toNat + n ≤ 8 * s.rlen) :
    ∃ t r, directRead W n s = .next t ∧ s.answered t none r ∧ t.rcur.toNat = s.rcur.toNat + n := by
  have room := readerCanAdvance_of_le hI.rlenBound inside
  obtain ⟨r, value⟩ : ∃ r, readBits W n s = .value r := by
    obtain ⟨tooBig, -⟩ | ⟨-, value⟩ | ⟨-, -, missing, -⟩ | ⟨-, -, -, r, -, ⟨-, value⟩ | ⟨noRoom, -⟩⟩ :=
      readBits_spec hI.rsrcHolds hW n
    · omega
    · exact ⟨0, value⟩
    · omega
    · exact ⟨r, value⟩
    · exact absurd room noRoom
  exact ⟨_, r, directRead_of_value bound value, rfl, State.advanceReader_toNat room⟩

/-- A direct read that answers an error raised that error, with `DATA` 0, and added only the response (R143). -/
theorem directRead_failed {e : ErrorKind} {d : Word64} (h : directRead W n s = .next t)
    (answer : s.answered t (some e) d) :
    s.rbound = true ∧ readBits W n s = .raised e ∧ d = 0 ∧ t = s.respond (some e) 0 := by
  obtain ⟨bound, ⟨v, -, rfl⟩ | ⟨e', raised, rfl⟩⟩ := directRead_cases h
  · simp [State.answered] at answer
  · obtain ⟨rfl, rfl⟩ : e' = e ∧ 0 = d := by simpa [State.answered] using answer
    exact ⟨bound, raised, rfl, rfl⟩

end

/-- Settles O39: the commands named are the reader's, and each looks at `RBOUND` first. -/
theorem unboundReaderRefuses : Obligations.UnboundReaderRefuses :=
  fun _ _ unbound hi => exec_of_unbound hi unbound

/-- Settles O43: both skips are one guarded advance, which looks at neither the data nor the latch. -/
theorem skipAdvancesTheCursor : Obligations.SkipAdvancesTheCursor := by
  unfold Obligations.SkipAdvancesTheCursor
  intro i k s isSkip bound
  rw [exec_of_skip isSkip]
  refine ⟨fun room => ?_, skipBits_of_overflow bound⟩
  have completes := skipBits_of_room bound room
  obtain ⟨frame, latch⟩ := skipBits_readerFrame completes
  exact ⟨_, completes, State.advanceReader_toNat room, frame.writer, frame.source, latch, frame.host, rfl⟩

/-- Settles O40: `directRead_outcome` gives the case, and the frame of a direct read the rest. -/
theorem directReadOutcomes : Obligations.DirectReadOutcomes := by
  unfold Obligations.DirectReadOutcomes
  intro i W n s form hI bound
  rw [exec_of_directForm form]
  obtain ⟨t, run, outcome⟩ := directRead_outcome (n := n) hI bound (directForm_width form)
  obtain ⟨frame, latch⟩ := directRead_readerFrame run
  exact ⟨t, run, frame.writer, frame.source, latch, frame.host, outcome⟩

/-- Settles O41: a read that raises adds only its answer, and what a read ends in depends on the reader's half alone. -/
theorem failedDirectReadLeavesNoTrace : Obligations.FailedDirectReadLeavesNoTrace := by
  unfold Obligations.FailedDirectReadLeavesNoTrace
  intro i s t e d hI isDirect h answer
  obtain ⟨⟨W, n⟩, form⟩ := Option.isSome_iff_exists.mp isDirect
  have kept : t.Inv := exec_keeps_inv hI h
  rw [exec_of_directForm form] at h
  obtain ⟨bound, raised, rfl, rfl⟩ := directRead_failed h answer
  refine ⟨rfl, rfl, ?again, fun j W' n' form' inWidth inside => ?fitting⟩
  case again =>
    have raisedAgain : readBits W n (s.respond (some e) 0) = .raised e := raised
    exact (exec_of_directForm form _).trans (directRead_of_raised bound raisedAgain)
  case fitting =>
    rw [exec_of_directForm form']
    exact directRead_of_inside kept bound (directForm_width form') inWidth inside

end Sys2Proof.Machine
end

section
/-! The sticky wrapper's commands (spec/43_sticky_reader.md): a sticky read with no error stored is the direct read with its
`STATUS` moved into the latch, a stored error freezes every sticky read, and `SERRQ` answers the latch's code. The round trip
with sticky reads (spec/95_test_vectors.md section 4) ends with nothing stored. -/

namespace Sys2Proof.Machine

variable {W n : Nat} {s t : State} {e : ErrorKind}

/-! ### `SERRQ` -/

theorem execSerrq_of_bound (bound : s.rbound = true) :
    execSerrq s = .next (s.respond none ((errorCode s.serr).setWidth 64)) := if_pos bound

/-- Settles O47: the word of R74, the refusal without a reader, and the code of each thing the latch can hold. -/
theorem serrqReportsTheLatch : Obligations.SerrqReportsTheLatch := by
  refine ⟨by decide, fun s => ⟨execSerrq_of_unbound, fun bound stored => ?_, fun bound stored => ?_,
    fun bound stored => ?_⟩⟩
  all_goals
    refine (execSerrq_of_bound bound).trans ?_
    rw [stored]
    rfl

/-! ### The round trip -/

/-- Settles O49: the round trip with sticky reads, after which `SERRQ` finds the reader bound and the latch clear. -/
theorem stickyRoundTrip : Obligations.StickyRoundTrip := by
  unfold Obligations.StickyRoundTrip
  intro ws rs fs widths s hI wForms wWidth rForms length rWidth top room
  obtain ⟨t, run, outputs, cursors, -, bound, clear⟩ :=
    roundTrip readForm_stickyForm hI wForms wWidth rForms length rWidth top room
  have query : exec .serrq t = .next (t.respond none 0) := by
    refine (execSerrq_of_bound bound).trans ?_
    rw [clear]
    rfl
  refine ⟨t.respond none 0, ?run, ?outputs, cursors, clear⟩
  case run => rw [runCommands_append run, runCommands_cons query, runCommands_nil]
  case outputs => rw [State.respond_outputs, outputs]; rfl

/-! ### A sticky read against the direct read -/

theorem stickyRead_of_stored (bound : s.rbound = true) (stored : s.serr = some e) :
    stickyRead W n s = .next (s.respond none 0) := by
  simp [stickyRead, bound, stored]

theorem stickyRead_of_value {v : Word64} (bound : s.rbound = true) (clear : s.serr = none)
    (value : readBits W n s = .value v) : stickyRead W n s = .next ((s.advanceReader n).respond none v) := by
  simp [stickyRead, bound, clear, value]

theorem stickyRead_of_raised (bound : s.rbound = true) (clear : s.serr = none) (raised : readBits W n s = .raised e) :
    stickyRead W n s = .next ({ s with serr := some e }.respond none 0) := by
  simp [stickyRead, bound, clear, raised, State.raiseSticky]

/-- A state's one answer fixes its status and its data. -/
theorem State.answered_inj {status status' : Option ErrorKind} {data data' : Word64} (h : s.answered t status data)
    (h' : s.answered t status' data') : status = status' ∧ data = data' := by
  simpa using h.symm.trans h'

theorem directRead_answered (h : directRead W n s = .next t) : ∃ status data, s.answered t status data := by
  obtain ⟨-, ⟨v, -, rfl⟩ | ⟨e, -, rfl⟩⟩ := directRead_cases h
  · exact ⟨none, v, rfl⟩
  · exact ⟨some e, 0, rfl⟩

/-- With no error stored, a sticky read is the direct read whose `STATUS` goes into the latch and not into the answer. -/
theorem stickyRead_of_directRead {status : Option ErrorKind} {data : Word64} (clear : s.serr = none)
    (h : directRead W n s = .next t) (answer : s.answered t status data) :
    stickyRead W n s = .next ({ t with serr := status, outputs := s.outputs }.respond none data) := by
  obtain ⟨bound, ⟨v, value, rfl⟩ | ⟨e, raised, rfl⟩⟩ := directRead_cases h
  · obtain ⟨rfl, rfl⟩ := State.answered_inj rfl answer
    rw [stickyRead_of_value bound clear value, ← clear]
    rfl
  · obtain ⟨rfl, rfl⟩ := State.answered_inj rfl answer
    rw [stickyRead_of_raised bound clear raised]
    rfl

/-- Settles O45: the commands are the two reads of one width and count. -/
theorem stickyAgreesWithDirectWhileOk : Obligations.StickyAgreesWithDirectWhileOk := by
  unfold Obligations.StickyAgreesWithDirectWhileOk
  intro i j W n s t status data direct sticky clear h answer
  rw [exec_of_directForm direct] at h
  rw [exec_of_stickyForm sticky, stickyRead_of_directRead clear h answer]

/-- Settles O44: a stored error leaves only the answer; else the case is the direct read's, with its `STATUS` in the
latch. -/
theorem stickyReadOutcomes : Obligations.StickyReadOutcomes := by
  unfold Obligations.StickyReadOutcomes
  intro i W n s form hI bound
  rw [exec_of_stickyForm form]
  cases stored : s.serr with
  | some e =>
    have run := stickyRead_of_stored (W := W) (n := n) bound stored
    refine ⟨_, run, ⟨rfl, rfl, rfl⟩, ⟨rfl, rfl, rfl⟩, ⟨rfl, rfl, rfl⟩, ?_⟩
    rw [if_pos (Option.some_ne_none e)]
    exact ⟨rfl, stored, rfl⟩
  | none =>
    obtain ⟨t, direct, outcome⟩ := directRead_outcome (n := n) hI bound (stickyForm_width form)
    obtain ⟨status, data, answer⟩ := directRead_answered direct
    have run := stickyRead_of_directRead stored direct answer
    have frame := stickyRead_readerFrame run
    refine ⟨_, run, frame.writer, frame.source, frame.host, ?_⟩
    rw [if_neg (not_not.mpr rfl)]
    split_ifs at outcome ⊢
    iterate 3
      · obtain ⟨rcur, expected⟩ := outcome
        obtain ⟨rfl, rfl⟩ := State.answered_inj answer expected
        exact ⟨rcur, rfl, rfl⟩
    · obtain ⟨rcur, r, expected, bits, zeros, -⟩ := outcome
      obtain ⟨rfl, rfl⟩ := State.answered_inj answer expected
      exact ⟨rcur, rfl, data, rfl, bits, zeros⟩

/-! ### The freeze -/

/-- What `i` answers while `e` is stored, if it is a sticky read or `SERRQ` (R158, R159). -/
structure FrozenAnswer (e : ErrorKind) (i : Instr) (o : Output) : Prop where
  sticky : (stickyForm i).isSome → o = ⟨⟨none, 0⟩, none⟩
  serrq : i = .serrq → o = ⟨⟨none, (errorCode (some e)).setWidth 64⟩, none⟩

/-- A frozen sticky read adds its answer and changes nothing else. -/
theorem exec_sticky_frozen {i : Instr} (stored : s.serr = some e) (isSticky : (stickyForm i).isSome)
    (h : exec i s = .next t) : t = s.respond none 0 := by
  obtain ⟨⟨W, n⟩, form⟩ := Option.isSome_iff_exists.mp isSticky
  rw [exec_of_stickyForm form] at h
  obtain ⟨-, ⟨_, -, rfl⟩ | ⟨clear, -⟩⟩ := stickyRead_cases h
  · rfl
  · cases stored.symm.trans clear

/-- A stored error stays through every command that creates no reader. -/
theorem exec_frozen_serr {i : Instr} (stored : s.serr = some e) (creates : createsReader i = false)
    (h : exec i s = .next t) : t.serr = some e := by
  obtain ⟨-, -, frame⟩ | ⟨isDirect | isSticky | rfl | ⟨k, isSkip⟩, -, -⟩ | ⟨yes, -⟩ := exec_cases h
  · obtain ⟨-, -, latch⟩ := frame.reader
    rw [latch, stored]
  · obtain ⟨⟨W, n⟩, form⟩ := Option.isSome_iff_exists.mp isDirect
    obtain ⟨-, -, latch⟩ := exec_direct_unchanged form h
    rw [latch, stored]
  · rw [exec_sticky_frozen stored isSticky h, State.respond_serr, stored]
  · obtain ⟨-, -, -, latch⟩ := execSerrq_readerFrame h
    rw [latch, stored]
  · obtain ⟨-, -, latch⟩ := exec_skip_unchanged isSkip h
    rw [latch, stored]
  · cases creates.symm.trans yes

theorem exec_frozen_answer {i : Instr} (stored : s.serr = some e) (h : exec i s = .next t) :
    ∃ o, t.outputs = s.outputs ++ [o] ∧ FrozenAnswer e i o := by
  obtain ⟨-, ⟨o, answer⟩, -⟩ := exec_host_answer_draws h
  refine ⟨o, answer, fun isSticky => ?sticky, ?serrq⟩
  case sticky =>
    rw [exec_sticky_frozen stored isSticky h] at answer
    simpa using answer.symm
  case serrq =>
    rintro rfl
    obtain ⟨-, rfl⟩ := execSerrq_cases h
    rw [stored] at answer
    simpa using answer.symm

/-- Along commands that create no reader the error stays, and each command answers as a frozen one. -/
theorem runCommands_frozen {is : List Instr} (stored : s.serr = some e) (creates : ∀ i ∈ is, createsReader i = false)
    (h : runCommands is s = .next t) :
    t.serr = some e ∧ ∃ os, t.outputs = s.outputs ++ os ∧ List.Forall₂ (FrozenAnswer e) is os := by
  induction is generalizing s with
  | nil => cases h; exact ⟨stored, [], by simp, .nil⟩
  | cons i is ih =>
    obtain ⟨iCreates, creates⟩ := List.forall_mem_cons.mp creates
    obtain ⟨s', first, rest⟩ := runCommands_cons_inv h
    obtain ⟨o, answer, frozen⟩ := exec_frozen_answer stored first
    obtain ⟨stored', os, answers, allFrozen⟩ := ih (exec_frozen_serr stored iCreates first) creates rest
    exact ⟨stored', o :: os, by rw [answers, answer, List.append_assoc]; rfl, .cons frozen allFrozen⟩

/-- No frozen sticky read and no `SERRQ` moves the cursor. -/
theorem runCommands_frozen_rcur {is : List Instr} (stored : s.serr = some e)
    (queries : ∀ i ∈ is, (stickyForm i).isSome ∨ i = .serrq) (h : runCommands is s = .next t) : t.rcur = s.rcur := by
  induction is generalizing s with
  | nil => cases h; rfl
  | cons i is ih =>
    obtain ⟨query, restQueries⟩ := List.forall_mem_cons.mp queries
    obtain ⟨s', first, rest⟩ := runCommands_cons_inv h
    obtain isSticky | rfl := query
    · obtain rfl := exec_sticky_frozen stored isSticky first
      exact ih (s := s.respond none 0) stored restQueries rest
    · obtain ⟨-, rfl⟩ := execSerrq_cases first
      exact ih (s := s.respond none ((errorCode s.serr).setWidth 64)) stored restQueries rest

/-- Settles O46: the frozen answers, looked up by the command's index, and the skip, which does not look at the latch. -/
theorem stickyFreeze : Obligations.StickyFreeze := by
  unfold Obligations.StickyFreeze
  intro is s t e stored creates h
  obtain ⟨stored', os, answers, allFrozen⟩ := runCommands_frozen stored creates h
  refine ⟨stored', fun k i at_k => ?answer, fun queries => runCommands_frozen_rcur stored queries h,
    fun k bound room => ⟨_, skipBits_of_room bound room, State.advanceReader_toNat room, stored'⟩⟩
  case answer =>
    obtain ⟨hk, rfl⟩ := List.getElem?_eq_some_iff.mp at_k
    have hk' : k < os.length := allFrozen.length_eq ▸ hk
    obtain ⟨sticky, serrq⟩ : FrozenAnswer e is[k] os[k] := allFrozen.get hk hk'
    rw [answers, List.getElem?_append_right (Nat.le_add_right _ _), Nat.add_sub_cancel_left,
      List.getElem?_eq_getElem hk']
    exact ⟨fun isSticky => congrArg some (sticky isSticky), fun isSerrq => congrArg some (serrq isSerrq)⟩

end Sys2Proof.Machine
end

section
/-! Errors, and the stops that are not errors (spec/60_exceptions.md): an error kind is reported only by a direct read and
stored only by a sticky one, and only where `ReadBits` raised it; every command completes but in the situations of R182. -/

namespace Sys2Proof.Machine

variable {i : Instr} {s t : State} {e : ErrorKind}

/-! ### Which command can report which kind -/

/-- Of a command that is no direct read, the answer's `STATUS` is 0. -/
theorem exec_status_of_not_direct (other : directForm i = none) (h : exec i s = .next t) :
    ∃ data bytes, t.outputs = s.outputs ++ [⟨⟨none, data⟩, bytes⟩] := by
  obtain ⟨f, form⟩ | ⟨W, n, form⟩ | ⟨W, n, form⟩ | ⟨k, isSkip⟩ | rfl | rfl | rfl | rfl | rfl := instr_shape i
  · rw [exec_of_writeForm form] at h
    obtain ⟨-, -, answer, -⟩ := writeBits_frame h
    exact ⟨_, _, answer⟩
  · cases other.symm.trans form
  · rw [exec_of_stickyForm form] at h
    obtain ⟨-, ⟨_, -, rfl⟩ | ⟨-, ⟨_, -, rfl⟩ | ⟨_, -, rfl⟩⟩⟩ := stickyRead_cases h
    all_goals exact ⟨_, _, rfl⟩
  · rw [exec_of_skip isSkip] at h
    obtain ⟨-, -, rfl⟩ := skipBits_cases h
    exact ⟨_, _, rfl⟩
  iterate 4 · cases h; exact ⟨_, _, rfl⟩
  · obtain ⟨-, rfl⟩ := execSerrq_cases h
    exact ⟨_, _, rfl⟩

/-- A command that is no sticky read leaves the latch or, creating a reader, clears it. -/
theorem exec_serr_of_not_sticky (other : stickyForm i = none) (h : exec i s = .next t) :
    t.serr = s.serr ∨ t.serr = none := by
  obtain ⟨-, -, frame⟩ | ⟨isDirect | isSticky | rfl | ⟨k, isSkip⟩, -, -⟩ | ⟨-, source, len, rfl, -⟩ := exec_cases h
  · obtain ⟨-, -, latch⟩ := frame.reader
    exact .inl latch
  · obtain ⟨⟨W, n⟩, form⟩ := Option.isSome_iff_exists.mp isDirect
    obtain ⟨-, -, latch⟩ := exec_direct_unchanged form h
    exact .inl latch
  · simp [other] at isSticky
  · obtain ⟨-, -, -, latch⟩ := execSerrq_readerFrame h
    exact .inl latch
  · obtain ⟨-, -, latch⟩ := exec_skip_unchanged isSkip h
    exact .inl latch
  · exact .inr rfl

/-- A response names an error kind only where it answers a direct read that raised it. -/
theorem exec_reports {o : Output} (h : exec i s = .next t) (answer : t.outputs = s.outputs ++ [o])
    (reported : o.response.status = some e) :
    ∃ W n, directForm i = some (W, n) ∧ readBits W n s = .raised e := by
  cases form : directForm i with
  | none =>
    obtain ⟨data, bytes, answer'⟩ := exec_status_of_not_direct form h
    obtain rfl : o = ⟨⟨none, data⟩, bytes⟩ := by simpa using answer.symm.trans answer'
    cases reported
  | some p =>
    obtain ⟨W, n⟩ := p
    rw [exec_of_directForm form] at h
    refine ⟨W, n, rfl, ?_⟩
    obtain ⟨-, ⟨v, -, rfl⟩ | ⟨e', raised, rfl⟩⟩ := directRead_cases h
    · obtain rfl : ⟨⟨none, v⟩, none⟩ = o := by simpa using answer
      cases reported
    · obtain rfl : ⟨⟨some e', 0⟩, none⟩ = o := by simpa using answer
      cases reported
      exact raised

/-- The latch comes to hold an error kind only by a sticky read whose delegated read raised it. -/
theorem exec_latches (h : exec i s = .next t) (before : s.serr ≠ some e) (after : t.serr = some e) :
    ∃ W n, stickyForm i = some (W, n) ∧ readBits W n s = .raised e := by
  cases form : stickyForm i with
  | none =>
    obtain kept | cleared := exec_serr_of_not_sticky form h
    · exact absurd (kept.symm.trans after) before
    · cases cleared.symm.trans after
  | some p =>
    obtain ⟨W, n⟩ := p
    rw [exec_of_stickyForm form] at h
    refine ⟨W, n, rfl, ?_⟩
    obtain ⟨-, ⟨_, -, rfl⟩ | ⟨clear, ⟨v, -, rfl⟩ | ⟨e', raised, rfl⟩⟩⟩ := stickyRead_cases h
    · exact absurd after before
    · exact absurd after before
    · obtain rfl : e' = e := by simpa [clear] using after
      exact raised

/-- `ReadBits` raises `BitCountTooBig` only for a count above its width (R171). -/
theorem lt_of_readBits_bitCountTooBig {W n : Nat} (h : readBits W n s = .raised .bitCountTooBig) : W < n := by
  unfold readBits at h
  split at h
  case isTrue tooBig => exact tooBig
  case isFalse =>
    exfalso
    repeat' split at h
    all_goals cases h

theorem directForm_eq_some {W n : Nat} (h : directForm i = some (W, n)) :
    (i = .rdb ∧ W = 8 ∧ n = 1) ∨ ∃ n, i = .rd8 n ∨ i = .rd16 n ∨ i = .rd32 n ∨ i = .rd64 n := by
  cases i with
  | rdb => cases h; exact .inl ⟨rfl, rfl, rfl⟩
  | rd8 | rd16 | rd32 | rd64 => simp
  | _ => cases h

theorem stickyForm_eq_some {W n : Nat} (h : stickyForm i = some (W, n)) :
    (i = .srdb ∧ W = 8 ∧ n = 1) ∨ ∃ n, i = .srd8 n ∨ i = .srd16 n ∨ i = .srd32 n ∨ i = .srd64 n := by
  cases i with
  | srdb => cases h; exact .inl ⟨rfl, rfl, rfl⟩
  | srd8 | srd16 | srd32 | srd64 => simp
  | _ => cases h

/-- Settles O19: an error comes from a read, and the one bit of `RDB` and `SRDB` is never too many for its container. -/
theorem errorKindsByCommand : Obligations.ErrorKindsByCommand := by
  unfold Obligations.ErrorKindsByCommand
  intro i s t o h answer
  refine ⟨fun reported => ?_, fun reported => ?_, fun before after => ?_, fun before after => ?_⟩
  · obtain ⟨W, n, form, raised⟩ := exec_reports h answer reported
    have tooBig := lt_of_readBits_bitCountTooBig raised
    obtain ⟨-, rfl, rfl⟩ | counted := directForm_eq_some form
    · omega
    · exact counted
  · obtain ⟨W, n, form, -⟩ := exec_reports h answer reported
    exact (directForm_eq_some form).imp_left And.left
  · obtain ⟨W, n, form, raised⟩ := exec_latches h before after
    have tooBig := lt_of_readBits_bitCountTooBig raised
    obtain ⟨-, rfl, rfl⟩ | counted := stickyForm_eq_some form
    · omega
    · exact counted
  · obtain ⟨W, n, form, -⟩ := exec_latches h before after
    exact (stickyForm_eq_some form).imp_left And.left

/-! ### Where a command stops -/

theorem fits_iff {capacity : Option Nat} {len : Nat} :
    fits capacity len = true ↔ ∀ cap, capacity = some cap → len ≤ cap := by
  cases capacity <;> simp [fits]

theorem exec_completes_of_unguarded (hi : i = .wnew ∨ i = .wbytes ∨ createsReader i = true) :
    ∃ t, exec i s = .next t := by
  cases i with
  | wnew | wbytes | rnewX | rnewW => exact ⟨_, rfl⟩
  | _ => simp [createsReader] at hi

theorem directRead_completes {W n : Nat} (hI : s.Inv) (bound : s.rbound = true) (hW : W ≤ 64) :
    ∃ t, directRead W n s = .next t := by
  obtain ⟨t, run, -⟩ := directRead_outcome (n := n) hI bound hW
  exact ⟨t, run⟩

/-- A sticky read completes where the direct read would, or by a stored error without it. -/
theorem stickyRead_completes {W n : Nat} (hI : s.Inv) (bound : s.rbound = true) (hW : W ≤ 64) :
    ∃ t, stickyRead W n s = .next t := by
  cases stored : s.serr with
  | some e => exact ⟨_, stickyRead_of_stored bound stored⟩
  | none =>
    obtain ⟨t, run⟩ := directRead_completes (n := n) hI bound hW
    obtain ⟨status, data, answer⟩ := directRead_answered run
    exact ⟨_, stickyRead_of_directRead stored run answer⟩

/-- Past the guard of R139 no read and no `SERRQ` stops: the invariant excludes an absent byte and a cursor overflow. -/
theorem exec_query_completes (hI : s.Inv) (bound : s.rbound = true)
    (hi : (directForm i).isSome ∨ (stickyForm i).isSome ∨ i = .serrq) : ∃ t, exec i s = .next t := by
  obtain isDirect | isSticky | rfl := hi
  · obtain ⟨⟨W, n⟩, form⟩ := Option.isSome_iff_exists.mp isDirect
    rw [exec_of_directForm form]
    exact directRead_completes hI bound (directForm_width form)
  · obtain ⟨⟨W, n⟩, form⟩ := Option.isSome_iff_exists.mp isSticky
    rw [exec_of_stickyForm form]
    exact stickyRead_completes hI bound (stickyForm_width form)
  · exact ⟨_, execSerrq_of_bound bound⟩

/-- Settles O20: the rows of R182 are the guards of the shared operations, which complete past them. -/
theorem commandsStopExactlyWhereListed : Obligations.CommandsStopExactlyWhereListed := by
  unfold Obligations.CommandsStopExactlyWhereListed
  intro i s hI
  refine ⟨fun f form => ?writes, exec_completes_of_unguarded, fun hi => ?queries, fun k isSkip => ?skips⟩
  case writes =>
    obtain ⟨tooBig, overflow⟩ := writesRefused i f s form
    obtain ⟨stuck, -⟩ := writeStuckAtCapacity i f s form
    refine ⟨tooBig, overflow, fun inWidth room cap capacity => stuck cap capacity inWidth room,
      fun inWidth room short => ?_⟩
    rw [exec_of_writeForm form]
    exact writeBits_completes f.value hI inWidth room (fits_iff.mpr short)
  case queries =>
    have hReader : ReaderCommand i := hi.imp_right (Or.imp_right Or.inl)
    exact ⟨exec_of_unbound hReader, fun bound => exec_query_completes hI bound hi⟩
  case skips =>
    rw [exec_of_skip isSkip]
    exact ⟨skipBits_of_unbound, skipBits_of_overflow, fun bound room => ⟨_, skipBits_of_room bound room⟩⟩

end Sys2Proof.Machine
end

section
/-! What a step does with the first thing on the port when it is no command (spec/60_exceptions.md R178,
70_reset_and_hazards.md R190, R192; assumption logs 2, 3, 4). -/

namespace Sys2Proof.Machine

variable {s : State} {rest : List HostInput} {bytes : List Byte}

theorem step_of_emptyPort (hport : s.inputs = []) : step s = .next s := by
  simp only [step, hport]

theorem step_of_placeSource (hport : s.inputs = .placeSource bytes :: rest) :
    step s = placeSource bytes { s with inputs := rest } := by
  simp only [step, hport]

theorem step_of_reset (hport : s.inputs = .reset :: rest) : step s = .next (resetBlock { s with inputs := rest }) := by
  simp only [step, hport]

theorem placeSource_of_short (short : bytes.length < Config.sourceLimit) :
    placeSource bytes s = .next { s with xsrc := bytes } :=
  if_pos short

theorem placeSource_of_long (long : Config.sourceLimit ≤ bytes.length) :
    placeSource bytes s = .refused .sourceTooLong :=
  if_neg (Nat.not_lt.mpr long)

/-- Settles O11: one case of `step` for each thing on the port that is no command, and the fields of `resetBlock`. -/
theorem hostActionsBesideCommands : Obligations.HostActionsBesideCommands := by
  unfold Obligations.HostActionsBesideCommands
  refine fun s => ⟨step_of_emptyPort, fun bytes rest hport short => ?placed, fun bytes rest hport long => ?tooLong,
    fun rest hport => ⟨_, step_of_reset hport, ?afterReset⟩⟩
  case placed => rw [step_of_placeSource hport, placeSource_of_short short]
  case tooLong => rw [step_of_placeSource hport, placeSource_of_long long]
  case afterReset => exact ⟨rfl, rfl, rfl, rfl, rfl, rfl, rfl, rfl, rfl, rfl, rfl, rfl, rfl⟩

end Sys2Proof.Machine
end

section
/-! A run that takes encoded commands from the port is the run of the commands (spec/70_reset_and_hazards.md R193): each
step executes the first command (10_state.md R21), which does the same whatever else stands on the port. -/

namespace Sys2Proof.Machine

variable {s : State} {i : Instr} {is : List Instr}

theorem runCommands_cons_fault {r : Fault} (h : exec i s = .fault r) : runCommands (i :: is) s = .fault r := by
  simp only [runCommands, h]

theorem runCommands_cons_refused {r : Refusal} (h : exec i s = .refused r) :
    runCommands (i :: is) s = .refused r := by
  simp only [runCommands, h]

/-- A step with an encoded command on top of `rest` does what the command does, and leaves `rest`. -/
theorem step_encode_onPort (hwf : i.wellFormed = true) (rest : List HostInput) :
    step (s.onPort (.command (encode i) :: rest)) = mapNext (State.onPort rest) (exec i s) :=
  (step_of_decode rfl (decode_encode hwf)).trans (exec_onPort i s rest)

/-- Settles O7, by induction on the commands: the first step and the first command end alike, but for the words still on
the port, which the rest of the run takes. -/
theorem encodedRunIsCommandRun : Obligations.EncodedRunIsCommandRun := by
  unfold Obligations.EncodedRunIsCommandRun
  intro is s rest hwf
  induction is generalizing s with
  | nil => rfl
  | cons i is ih =>
    obtain ⟨hi, his⟩ := List.forall_mem_cons.mp hwf
    have stepped := step_encode_onPort (s := s) hi (is.map (fun i => .command (encode i)) ++ rest)
    have executed := exec_onPort i s rest
    cases first : exec i s with
    | next t =>
      rw [first] at stepped executed
      exact (run_succ_next stepped _).trans ((ih t his).trans (runCommands_cons executed).symm)
    | fault r =>
      rw [first] at stepped executed
      exact (run_succ_fault stepped _).trans (runCommands_cons_fault executed).symm
    | refused r =>
      rw [first] at stepped executed
      exact (run_succ_refused stepped _).trans (runCommands_cons_refused executed).symm

end Sys2Proof.Machine
end
